-- ==== Sys2Proof/Word.lean ====
section
/-! DEFINITION. The words of the port: DATA_W = 64 data bits and 8-bit byte lanes (00_scope.md R7, 20_memory.md R32, R35). -/

namespace Sys2Proof

/-- One 64-bit register value; every register of the port is 64 bits wide (10_state.md R16). -/
abbrev Word := BitVec 64

/-- One byte lane of a register (20_memory.md R35). -/
abbrev Byte := BitVec 8

end Sys2Proof
end

