-- ==== Sys2Proof/Config.lean ====
section
/-! DEFINITION. What an instance of the core fixes (00_scope.md R7), and the free values the spec leaves open: the contents of
SAMPLE after a reset and the magnitude function (93_implementation_defined.md U1, U2). -/

namespace Sys2Proof.Config

/-- NUM_NOTES (R7): the notes are numbered 0 to 87. -/
abbrev numNotes : Nat := 88

/-- MIDI_BASE (R7): `midiNote = noteIndex + 21`. -/
def midiBase : Nat := 21

/-- The value of the `ID` register (R3, R17): ASCII "CHROMF" and interface revision 1. -/
def idValue : Word := 0x4348524F4D460001#64

/-- HAS_HANN = 1 (R7): the Hann option is implemented. -/
def hasHann : BitVec 1 := 1#1

/-- The suggested value of the OPEN parameter N_MAX (R7). DESIGN CHOICE (log 5): `State.reset` takes it. The parameter itself is
the field `State.nMax`, so a statement about every state holds for every N_MAX. -/
def nMaxSuggested : Nat := 4096

/-- The bounds R7 puts on N_MAX: 2 ≤ N_MAX ≤ 2^20. -/
abbrev NMaxLegal (n : Nat) : Prop := 2 ≤ n ∧ n ≤ 2 ^ 20

/-- FREE VALUE (R29, R119, U1; log 4): the 64-bit pattern element `i` of SAMPLE holds after reset number `epoch`. -/
opaque sampleDraw : (epoch : Nat) → (i : Nat) → Word

/-- The type of the magnitude configuration function MagFn (42_magnitude.md R69): samples, N, the bits of the rate, WIN_EN,
WIN_SEL and the note index. -/
abbrev MagFn := (samples : List Word) → (n : Nat) → (rate : Word) → (winEn : Bool) → (winSel : BitVec 2) → (k : Fin numNotes) → Word

/-- FREE VALUE (R69, U2; log 6): an arbitrary function of MagFn's operands. The machine uses it through
`Machine.constrain`, which gives it the properties R70, R71 and R72 and takes nothing else away. -/
opaque rawMagnitude : MagFn

end Sys2Proof.Config
end

