-- ==== Sys2Proof/Syntax.lean ====
section
/-! DEFINITION. The instructions: the five rows of spec/opcode_table.json (30_encoding.md R52). -/

namespace Sys2Proof

/-- One constructor per row of the opcode table. The internal operations WINDOW, TARGET_FREQ and MAGNITUDE and the core's own
step COMPLETE have no encoding (R52) and are no instructions. -/
inductive Instr where
  /-- BUS_READ (R96): descriptor fields ADDR and SIZE. -/
  | busRead (addr : BitVec 24) (size : BitVec 2)
  /-- BUS_WRITE (R97): descriptor fields ADDR and SIZE, and the write data. -/
  | busWrite (addr : BitVec 24) (size : BitVec 2) (wdata : Word)
  /-- NOP (R98): CMD word 0. -/
  | nop
  /-- START (R84): CMD word 1. -/
  | start
  /-- CLEAR_STATUS (R99): CMD word 2. -/
  | clearStatus
  deriving DecidableEq, Repr

end Sys2Proof
end

