-- ==== Sys2Proof/WellFormed.lean ====
section
/-! DEFINITION. Well-formed instructions: the one spelling an instruction has where the spec gives its words two names. -/

namespace Sys2Proof

/-- The three legal CMD words (30_encoding.md R49). -/
def legalCmdWord (w : Word) : Bool :=
  w == 0x0000000000000000#64 || w == 0x0000000000000001#64 || w == 0x0000000000000002#64

/-- An aligned 8-byte BUS_WRITE of a legal command word to CMD (offset 0x0020): its words are those of NOP, START or
CLEAR_STATUS (R47, R49). -/
def isCommandWrite (addr : BitVec 24) (size : BitVec 2) (wdata : Word) : Bool :=
  addr == 0x000020#24 && size == 3#2 && legalCmdWord wdata

/-- Every field is bounded by its type, so the one check is that a command is written as its command, not as the BUS_WRITE that
carries it (DESIGN CHOICE, log 11; the two have the same effect, `execBusWrite_command`). -/
def Instr.wellFormed : Instr → Bool
  | .busRead _ _ => true
  | .busWrite addr size wdata => !isCommandWrite addr size wdata
  | .nop => true
  | .start => true
  | .clearStatus => true

end Sys2Proof
end

