-- ==== Sys2Proof/Decode.lean ====
section
/-! DEFINITION. The decoder of bus requests, total and rejecting by name, and the encoder beside it (30_encoding.md R47 to R54). -/

namespace Sys2Proof

/-- One request on the port (R47, R48): the 32-bit descriptor and the 64-bit write data. A read carries no WDATA, so its write
data is ignored (log 10). -/
structure Request where
  descriptor : BitVec 32
  wdata : Word
  deriving DecidableEq, Repr

/-- Why the decoder refuses a request. -/
inductive DecodeError where
  /-- Descriptor bits [7:3] are not 0 (R48, V2): an ill-formed request, which never reaches the core. -/
  | reservedField
  deriving DecidableEq, Repr

/-- The three commands of a CMD word (R49). -/
inductive Command where
  | nop
  | start
  | clearStatus
  deriving DecidableEq, Repr

/-- Descriptor field WE, bit [0] (R48). -/
def descWE (d : BitVec 32) : BitVec 1 := d.extractLsb' 0 1

/-- Descriptor field SIZE, bits [2:1] (R48). -/
def descSize (d : BitVec 32) : BitVec 2 := d.extractLsb' 1 2

/-- The reserved descriptor field, bits [7:3] (R48). -/
def descReserved (d : BitVec 32) : BitVec 5 := d.extractLsb' 3 5

/-- Descriptor field ADDR, bits [31:8] (R48). -/
def descAddr (d : BitVec 32) : BitVec 24 := d.extractLsb' 8 24

/-- CMD word field OP, bits [7:0] (R49). -/
def cmdOp (w : Word) : BitVec 8 := w.extractLsb' 0 8

/-- CMD word field MBZ, bits [63:8] (R49). -/
def cmdMbz (w : Word) : BitVec 56 := w.extractLsb' 8 56

/-- `decode_cmd` of R49; `none` is BAD_CMD. -/
def decodeCmd (w : Word) : Option Command :=
  if cmdMbz w ≠ 0#56 then none
  else if cmdOp w = 0x00#8 then some .nop
  else if cmdOp w = 0x01#8 then some .start
  else if cmdOp w = 0x02#8 then some .clearStatus
  else none

/-- The CMD word of a command (R49, R52). -/
def Command.word : Command → Word
  | .nop => 0x0000000000000000#64
  | .start => 0x0000000000000001#64
  | .clearStatus => 0x0000000000000002#64

/-- The instruction a command is. -/
def Command.toInstr : Command → Instr
  | .nop => .nop
  | .start => .start
  | .clearStatus => .clearStatus

/-- The instruction a write is: a legal CMD word in an aligned 8-byte write to CMD is its command (R47, R49); every other write
is a BUS_WRITE, a reserved CMD word included (R53). -/
def decodeWrite (addr : BitVec 24) (size : BitVec 2) (wdata : Word) : Instr :=
  if addr = 0x000020#24 ∧ size = 3#2 then
    match decodeCmd wdata with
    | some c => c.toInstr
    | none => .busWrite addr size wdata
  else .busWrite addr size wdata

/-- The decoder: total on every request, and independent of the core's state (R54). -/
def decode (r : Request) : Except DecodeError Instr :=
  if descReserved r.descriptor ≠ 0#5 then .error .reservedField
  else if descWE r.descriptor = 0#1 then .ok (.busRead (descAddr r.descriptor) (descSize r.descriptor))
  else .ok (decodeWrite (descAddr r.descriptor) (descSize r.descriptor) r.wdata)

/-- The descriptor with the given fields and the reserved field 0 (R48). -/
def descriptorOf (addr : BitVec 24) (size : BitVec 2) (we : BitVec 1) : BitVec 32 :=
  addr ++ 0#5 ++ size ++ we

/-- The request that carries a CMD word: an aligned 8-byte BUS_WRITE to CMD, offset 0x0020 (R47). -/
def commandRequest (w : Word) : Request := ⟨descriptorOf 0x000020#24 3#2 1#1, w⟩

/-- The words of an instruction (R47, R48, R49). A read carries no write data; the encoder puts 0 there. -/
def encode : Instr → Request
  | .busRead addr size => ⟨descriptorOf addr size 0#1, 0#64⟩
  | .busWrite addr size wdata => ⟨descriptorOf addr size 1#1, wdata⟩
  | .nop => commandRequest Command.nop.word
  | .start => commandRequest Command.start.word
  | .clearStatus => commandRequest Command.clearStatus.word

/-- The request of an opcode-table word (log 12): a 64-bit row is a CMD word, carried by its BUS_WRITE to CMD; any other row is
a descriptor in bits [31:0] with the write data above it. -/
def requestOfTableWord (nbits w : Nat) : Request :=
  if nbits = 64 then commandRequest (BitVec.ofNat 64 w)
  else ⟨BitVec.ofNat 32 w, BitVec.ofNat 64 (w >>> 32)⟩

/-- What the decoder reads from an opcode-table word; `none` where it refuses. -/
def decodeTableWord (nbits w : Nat) : Option Instr :=
  match decode (requestOfTableWord nbits w) with
  | .ok i => some i
  | .error _ => none

end Sys2Proof
end

