-- ==== Sys2Proof/Machine/State.lean ====
section
/-! DEFINITION. The state of the core (10_state.md), the reasons a step can stop, and the state after reset (R31). -/

namespace Sys2Proof.Machine

/-- `CTRL` (10_state.md R19); its reserved bits [63:4] have no storage and read as 0. -/
structure Ctrl where
  /-- WIN_EN, bit [0]. -/
  winEn : Bool
  /-- WIN_SEL, bits [2:1]: 0 Hamming, 1 Hann; a write of 2 or 3 leaves it unchanged. -/
  winSel : BitVec 2
  /-- IRQ_EN, bit [3]. -/
  irqEn : Bool
  deriving DecidableEq, Repr

/-- `STATUS` (10_state.md R20); its reserved bits [3] and [63:12] have no storage and read as 0. -/
structure Status where
  /-- BUSY, bit [0]: the sequencer state (R15). -/
  busy : Bool
  /-- DONE, bit [1]. -/
  done : Bool
  /-- ERR, bit [2]. -/
  err : Bool
  /-- ERR_CAUSE, bits [7:4] (60_exceptions.md R104). -/
  errCause : BitVec 4
  /-- OVERRUN, bit [8]. -/
  overrun : Bool
  /-- WR_BUSY, bit [9]. -/
  wrBusy : Bool
  /-- BAD_CMD, bit [10]. -/
  badCmd : Bool
  /-- BAD_ACCESS, bit [11]. -/
  badAccess : Bool
  deriving DecidableEq, Repr

/-- One event of the total order of 20_memory.md R39: a step of one of the three agents of 60_exceptions.md R117. -/
inductive Event where
  /-- One bus access, by any master; the core cannot tell the masters apart (R117). -/
  | access (r : Request)
  /-- The core's turn: COMPLETE if BUSY (44_block_process.md R87); nothing if IDLE (R116; log 2). -/
  | core
  /-- The reset event (70_reset_and_hazards.md R119). -/
  | reset
  deriving DecidableEq, Repr

/-- The bytes of SAMPLE written since the last reset: (byte address, byte), addresses strictly rising (`Memory.wf`). An
unlisted byte has not been written and holds its byte of the reset draw (R29; log 4, log 13). -/
abbrev Memory := List Host.Cell

structure State where
  /-- `CTRL` (R19). -/
  ctrl : Ctrl
  /-- `STATUS` (R20). -/
  status : Status
  /-- `BLOCK_LEN[31:0]` (R22). -/
  blockLen : BitVec 32
  /-- `SAMPLE_RATE` (R23), a binary64 pattern. -/
  sampleRate : Word
  /-- `RESULT_SEQ` (R24). -/
  resultSeq : Word
  /-- `ERR_INFO` (R25). -/
  errInfo : Word
  /-- `RESULT[0..87]` (R27), binary64 patterns. -/
  result : Vector Word 88
  /-- What bus masters wrote to `SAMPLE` since the last reset (R29). -/
  mem : Memory
  /-- The parameter N_MAX of this instance (R7, R18); no step changes it (log 5). -/
  nMax : Nat
  /-- Model's own: how many resets came before, the argument of the free draw of `SAMPLE` (R119; log 4). -/
  epoch : Nat
  /-- Model's own: the RDATA the last BUS_READ returned (R48, R96; log 3). -/
  rdata : Word
  /-- Model's own: the next events of the total order of R39, the first one next (log 1). -/
  order : List Event
  deriving DecidableEq, Repr

/-- Why the machine stops with a fault: never. "No error stops the core, stalls the bus or blocks a later operation"
(60_exceptions.md R103), and nothing in the core is undefined (93_implementation_defined.md); no definition raises one (safe:
there is none to raise; log 14). -/
inductive Fault where
  deriving DecidableEq, Repr

/-- Why a step has no meaning. -/
inductive Refusal where
  /-- Raised by `exec` for an instruction that has no meaning yet (safe). No arm raises it. -/
  | notModelled (mnemonic : String)
  /-- Raised by `step` for a request whose descriptor has a nonzero reserved field [7:3]: an ill-formed request, refused by the
  decoder, which never reaches the core (30_encoding.md R48, V2; log 15). Safe: nothing is claimed after it. -/
  | illFormedRequest
  deriving DecidableEq, Repr

/-- `CTRL` after reset: 0x1 (R31). -/
def Ctrl.reset : Ctrl := { winEn := true, winSel := 0#2, irqEn := false }

/-- `STATUS` after reset: 0x0 (R31). -/
def Status.reset : Status :=
  { busy := false, done := false, err := false, errCause := 0#4
    overrun := false, wrBusy := false, badCmd := false, badAccess := false }

/-- The state right after reset (10_state.md R31). DESIGN CHOICE: N_MAX is the suggested 4096 (log 5), RDATA is 0 (log 3), the
first draw is number 0 (log 4) and no event is waiting (log 1). -/
def State.reset : State :=
  { ctrl := Ctrl.reset
    status := Status.reset
    blockLen := 0#32
    sampleRate := 0#64
    resultSeq := 0#64
    errInfo := 0#64
    result := Vector.replicate 88 0#64
    mem := []
    nMax := Config.nMaxSuggested
    epoch := 0
    rdata := 0#64
    order := [] }

end Sys2Proof.Machine
end

