-- ==== Sys2Proof/Machine/Binary64.lean ====
section
/-! DEFINITION. IEEE-754 binary64 patterns (00_scope.md R10): their fields, their classes, and the exact number a finite pattern
denotes. The layout is marked general knowledge by the spec itself (K2; log 8). -/

namespace Sys2Proof.Machine

/-- Sign bit [63]. -/
def f64Sign (w : Word) : Bool := w.getLsbD 63

/-- Biased exponent, bits [62:52]. -/
def f64Exp (w : Word) : BitVec 11 := w.extractLsb' 52 11

/-- Fraction, bits [51:0]. -/
def f64Frac (w : Word) : BitVec 52 := w.extractLsb' 0 52

/-- `isFinite`: false exactly for the infinities and the NaNs (R10). -/
def isFinite (w : Word) : Bool := f64Exp w != 0x7FF#11

/-- +0.0 or −0.0 (R10). -/
def isZero (w : Word) : Bool := w == 0x0000000000000000#64 || w == 0x8000000000000000#64

/-- A valid sample rate: finite and greater than 0 (44_block_process.md R88), read off the pattern. -/
def rateValid (w : Word) : Bool := isFinite w && !f64Sign w && !isZero w

/-- The integer significand of a finite pattern: a normal number has the hidden bit, a subnormal one has not. -/
def f64Significand (w : Word) : Nat :=
  if f64Exp w = 0#11 then (f64Frac w).toNat else 2 ^ 52 + (f64Frac w).toNat

/-- The exponent of the significand's unit: a finite pattern denotes ± significand · 2^(this − 1075). -/
def f64Scale (w : Word) : Nat := if f64Exp w = 0#11 then 1 else (f64Exp w).toNat

/-- The number `⟦f64(w)⟧` a finite pattern denotes (R10), exact; no rule asks for it of a non-finite pattern. -/
def f64Value (w : Word) : ℚ :=
  (if f64Sign w then -1 else 1) * (f64Significand w : ℚ) * (2 : ℚ) ^ ((f64Scale w : ℤ) - 1075)

end Sys2Proof.Machine
end

