-- ==== Sys2Proof/Machine/NoteMap.lean ====
section
/-! DEFINITION. The note-to-frequency mapper and its ROM (43_note_map.md). The source names no inverse map, and there is none (R83). -/

namespace Sys2Proof.Machine

/-- The MIDI note number of note index `k` (R78). -/
def midiNote (k : Fin 88) : Nat := k.val + Config.midiBase

/-- FREQ[0..11] (R81, column *bits*). -/
def freqOctave0 : List Word :=
  [0x403B800000000000#64, 0x403D229EC465C8A2#64, 0x403EDE22007F791A#64, 0x40405A0250C2B956#64,
   0x404152EC0E758E6F#64, 0x40425AA2E3AF0B21#64, 0x4043720820155764#64, 0x40449A0A791E127B#64,
   0x4045D3A6D600CABC#64, 0x40471FE927CA0DE9#64, 0x40487FED4E47ADFF#64, 0x4049F4E00A91D08E#64]

/-- FREQ[12..23] (R81, column *bits*). -/
def freqOctave1 : List Word :=
  [0x404B800000000000#64, 0x404D229EC465C8A2#64, 0x404EDE22007F791A#64, 0x40505A0250C2B956#64,
   0x405152EC0E758E6F#64, 0x40525AA2E3AF0B21#64, 0x4053720820155764#64, 0x40549A0A791E127B#64,
   0x4055D3A6D600CABC#64, 0x40571FE927CA0DE9#64, 0x40587FED4E47ADFF#64, 0x4059F4E00A91D08E#64]

/-- FREQ[24..35] (R81, column *bits*). -/
def freqOctave2 : List Word :=
  [0x405B800000000000#64, 0x405D229EC465C8A2#64, 0x405EDE22007F791A#64, 0x40605A0250C2B956#64,
   0x406152EC0E758E6F#64, 0x40625AA2E3AF0B21#64, 0x4063720820155764#64, 0x40649A0A791E127B#64,
   0x4065D3A6D600CABC#64, 0x40671FE927CA0DE9#64, 0x40687FED4E47ADFF#64, 0x4069F4E00A91D08E#64]

/-- FREQ[36..47] (R81, column *bits*). -/
def freqOctave3 : List Word :=
  [0x406B800000000000#64, 0x406D229EC465C8A2#64, 0x406EDE22007F791A#64, 0x40705A0250C2B956#64,
   0x407152EC0E758E6F#64, 0x40725AA2E3AF0B21#64, 0x4073720820155764#64, 0x40749A0A791E127B#64,
   0x4075D3A6D600CABC#64, 0x40771FE927CA0DE9#64, 0x40787FED4E47ADFF#64, 0x4079F4E00A91D08E#64]

/-- FREQ[48..59] (R81, column *bits*). -/
def freqOctave4 : List Word :=
  [0x407B800000000000#64, 0x407D229EC465C8A2#64, 0x407EDE22007F791A#64, 0x40805A0250C2B956#64,
   0x408152EC0E758E6F#64, 0x40825AA2E3AF0B21#64, 0x4083720820155764#64, 0x40849A0A791E127B#64,
   0x4085D3A6D600CABC#64, 0x40871FE927CA0DE9#64, 0x40887FED4E47ADFF#64, 0x4089F4E00A91D08E#64]

/-- FREQ[60..71] (R81, column *bits*). -/
def freqOctave5 : List Word :=
  [0x408B800000000000#64, 0x408D229EC465C8A2#64, 0x408EDE22007F791A#64, 0x40905A0250C2B956#64,
   0x409152EC0E758E6F#64, 0x40925AA2E3AF0B21#64, 0x4093720820155764#64, 0x40949A0A791E127B#64,
   0x4095D3A6D600CABC#64, 0x40971FE927CA0DE9#64, 0x40987FED4E47ADFF#64, 0x4099F4E00A91D08E#64]

/-- FREQ[72..83] (R81, column *bits*). -/
def freqOctave6 : List Word :=
  [0x409B800000000000#64, 0x409D229EC465C8A2#64, 0x409EDE22007F791A#64, 0x40A05A0250C2B956#64,
   0x40A152EC0E758E6F#64, 0x40A25AA2E3AF0B21#64, 0x40A3720820155764#64, 0x40A49A0A791E127B#64,
   0x40A5D3A6D600CABC#64, 0x40A71FE927CA0DE9#64, 0x40A87FED4E47ADFF#64, 0x40A9F4E00A91D08E#64]

/-- FREQ[84..87] (R81, column *bits*). -/
def freqOctave7 : List Word :=
  [0x40AB800000000000#64, 0x40AD229EC465C8A2#64, 0x40AEDE22007F791A#64, 0x40B05A0250C2B956#64]

/-- The ROM FREQ[0..87] (10_state.md R28; 43_note_map.md R81). -/
def freqRom : List Word :=
  freqOctave0 ++ freqOctave1 ++ freqOctave2 ++ freqOctave3
    ++ freqOctave4 ++ freqOctave5 ++ freqOctave6 ++ freqOctave7

/-- `FREQ[k]` (R81). -/
def freq (k : Fin 88) : Word := freqRom.getD k.val 0#64

/-- TARGET_FREQ(k) (R80): the frequency the magnitude unit uses for note `k`. -/
def targetFreq (k : Fin 88) : Word := freq k

end Sys2Proof.Machine
end

