-- ==== Sys2Proof/Machine/Flags.lean ====
section
/-! DEFINITION. The flags of the core: what sets and clears each field of STATUS (10_state.md R20, R26), its layout on the bus,
the layout of CTRL, and the interrupt output (60_exceptions.md R108). -/

namespace Sys2Proof.Machine

/-- OVERRUN <- 1: a START while BUSY (44_block_process.md R85). -/
def Status.setOverrun (t : Status) : Status := { t with overrun := true }

/-- WR_BUSY <- 1: a defined write to a protected register while BUSY (R86). -/
def Status.setWrBusy (t : Status) : Status := { t with wrBusy := true }

/-- BAD_CMD <- 1: a reserved CMD word (45_host_access.md R100). -/
def Status.setBadCmd (t : Status) : Status := { t with badCmd := true }

/-- BAD_ACCESS <- 1: an access the port does not define (20_memory.md R34, R36; R97). -/
def Status.setBadAccess (t : Status) : Status := { t with badAccess := true }

/-- STATUS when a START is accepted (R84); the sticky flags are kept. -/
def Status.started (t : Status) : Status :=
  { t with busy := true, done := false, err := false, errCause := 0#4 }

/-- STATUS after a commit (R90). -/
def Status.committed (t : Status) : Status := { t with busy := false, done := true }

/-- STATUS after InvalidBlock with cause `c` (60_exceptions.md R105). -/
def Status.failed (t : Status) (c : BitVec 4) : Status :=
  { t with busy := false, err := true, errCause := c }

/-- STATUS after CLEAR_STATUS (45_host_access.md R99): all but BUSY. -/
def Status.cleared (t : Status) : Status :=
  { busy := t.busy, done := false, err := false, errCause := 0#4
    overrun := false, wrBusy := false, badCmd := false, badAccess := false }

/-- STATUS as the 64-bit value a bus master reads (R20). -/
def Status.pack (t : Status) : Word :=
  0#52 ++ BitVec.ofBool t.badAccess ++ BitVec.ofBool t.badCmd ++ BitVec.ofBool t.wrBusy ++ BitVec.ofBool t.overrun
    ++ t.errCause ++ 0#1 ++ BitVec.ofBool t.err ++ BitVec.ofBool t.done ++ BitVec.ofBool t.busy

/-- CTRL as the 64-bit value a bus master reads (R19, R96). -/
def Ctrl.pack (c : Ctrl) : Word :=
  0#60 ++ BitVec.ofBool c.irqEn ++ c.winSel ++ BitVec.ofBool c.winEn

/-- WIN_SEL after a write of the field value `v` over `old`: write-any-read-legal (R19, D11). -/
def winSelWrite (old v : BitVec 2) : BitVec 2 :=
  if v = 0#2 ∨ v = 1#2 then v else old

/-- CTRL after a write of `w` while IDLE (R19). -/
def Ctrl.write (c : Ctrl) (w : Word) : Ctrl :=
  { winEn := w.getLsbD 0
    winSel := winSelWrite c.winSel (w.extractLsb' 1 2)
    irqEn := w.getLsbD 3 }

/-- The interrupt output: IRQ_EN AND (DONE OR ERR) (R108). -/
def State.irq (s : State) : Bool := s.ctrl.irqEn && (s.status.done || s.status.err)

end Sys2Proof.Machine
end

