-- ==== Sys2Proof/Machine/Ops.lean ====
section
/-! DEFINITION. The named operations over the state: one setter per field, the byte memory behind SAMPLE, the error entry
`raise InvalidBlock` (60_exceptions.md R105), the commit (44_block_process.md R90) and the reset event (R119). -/

namespace Sys2Proof.Machine

def State.setCtrl (s : State) (v : Ctrl) : State := { s with ctrl := v }
def State.setStatus (s : State) (v : Status) : State := { s with status := v }
def State.setBlockLen (s : State) (v : BitVec 32) : State := { s with blockLen := v }
def State.setSampleRate (s : State) (v : Word) : State := { s with sampleRate := v }
def State.setResultSeq (s : State) (v : Word) : State := { s with resultSeq := v }
def State.setErrInfo (s : State) (v : Word) : State := { s with errInfo := v }
def State.setResult (s : State) (v : Vector Word 88) : State := { s with result := v }
def State.setMem (s : State) (v : Memory) : State := { s with mem := v }
def State.setRdata (s : State) (v : Word) : State := { s with rdata := v }
def State.setOrder (s : State) (v : List Event) : State := { s with order := v }

/-! ### The byte memory -/

/-- The byte listed at an address; `none` where nothing was written since the last reset. -/
def Memory.load : Memory → Nat → Option Byte
  | [], _ => none
  | (a, b) :: m, x => if x = a then some b else Memory.load m x

/-- One byte stored, the list kept strictly rising. -/
def Memory.store : Memory → Nat → Byte → Memory
  | [], x, v => [(x, v)]
  | (a, b) :: m, x, v =>
    if x < a then (x, v) :: (a, b) :: m
    else if x = a then (x, v) :: m
    else (a, b) :: Memory.store m x v

/-- Consecutive bytes stored from an address up. -/
def Memory.storeBytes : Memory → Nat → List Byte → Memory
  | m, _, [] => m
  | m, a, b :: bs => Memory.storeBytes (Memory.store m a b) (a + 1) bs

/-- The canonical form: addresses strictly rising. An unlisted address loads as `none`, so no listed byte equals what an
unlisted address loads as (log 13). -/
def Memory.wf : Memory → Bool
  | [] => true
  | [_] => true
  | (a, _) :: (a', b') :: m => decide (a < a') && Memory.wf ((a', b') :: m)

/-- Byte lane `j` of a register value: bits [8j+7 : 8j] (20_memory.md R35). -/
def byteLane (w : Word) (j : Nat) : Byte := w.extractLsb' (8 * j) 8

/-- The eight byte lanes of a value, lane 0 first (R35). -/
def wordBytes (w : Word) : List Byte :=
  [byteLane w 0, byteLane w 1, byteLane w 2, byteLane w 3, byteLane w 4, byteLane w 5, byteLane w 6, byteLane w 7]

/-- The register value with the given byte lanes (R35). -/
def wordOfLanes (f : Nat → Byte) : Word :=
  f 7 ++ f 6 ++ f 5 ++ f 4 ++ f 3 ++ f 2 ++ f 1 ++ f 0

/-- The byte address of `SAMPLE[0]` (R16). -/
def sampleBase : Nat := 0x10000

/-- The byte address of `SAMPLE[i]` (R16, R29). -/
def sampleAddr (i : Nat) : Nat := sampleBase + 8 * i

/-- What byte address `a` of the SAMPLE window holds after the last reset if nothing wrote it: its lane of the element's free
draw (R29, R35). -/
def drawnByte (epoch a : Nat) : Byte :=
  byteLane (Config.sampleDraw epoch ((a - sampleBase) / 8)) ((a - sampleBase) % 8)

/-- The byte at byte address `a` of the SAMPLE window. -/
def State.readByte (s : State) (a : Nat) : Byte :=
  match Memory.load s.mem a with
  | some b => b
  | none => drawnByte s.epoch a

/-- `SAMPLE[i]`: what was last written there, or the drawn pattern (R29). -/
def State.sampleAt (s : State) (i : Nat) : Word :=
  wordOfLanes (fun j => s.readByte (sampleAddr i + j))

/-- `SAMPLE[i] <- w`. -/
def State.writeSample (s : State) (i : Nat) (w : Word) : State :=
  s.setMem (Memory.storeBytes s.mem (sampleAddr i) (wordBytes w))

/-! ### Sticky flags -/

/-- `STATUS.BAD_ACCESS <- 1` and nothing else (20_memory.md R34, R36; 45_host_access.md R97). -/
def State.flagBadAccess (s : State) : State := s.setStatus s.status.setBadAccess

/-- `STATUS.BAD_CMD <- 1` and nothing else (R100). -/
def State.flagBadCmd (s : State) : State := s.setStatus s.status.setBadCmd

/-- `STATUS.WR_BUSY <- 1` and nothing else (R86). -/
def State.flagWrBusy (s : State) : State := s.setStatus s.status.setWrBusy

/-- `STATUS.OVERRUN <- 1` and nothing else (R85). -/
def State.flagOverrun (s : State) : State := s.setStatus s.status.setOverrun

/-- A write to a protected register: performed while IDLE, dropped with WR_BUSY while BUSY (R86). -/
def State.protectedWrite (s : State) (written : State) : State :=
  if s.status.busy then s.flagWrBusy else written

/-! ### The end of a block, and reset -/

/-- `raise InvalidBlock(c, info)` (60_exceptions.md R105, R109): what stands in for taking an exception. It saves the cause and
the index and leaves RESULT, RESULT_SEQ and DONE; the core goes IDLE and control goes nowhere. There is no return from it
(R110). -/
def State.takeInvalidBlock (s : State) (c : BitVec 4) (info : Word) : State :=
  (s.setStatus (s.status.failed c)).setErrInfo info

/-- `commit(H)` (44_block_process.md R90): the whole vector, the sequence count and the status in one step. -/
def State.commit (s : State) (h : Vector Word 88) : State :=
  ((s.setResult h).setResultSeq (s.resultSeq + 1#64)).setStatus s.status.committed

/-- The reset event (70_reset_and_hazards.md R119): every register takes its value of R31, SAMPLE is drawn afresh, N_MAX and the
other constants stay. What a master has read, and the rest of the order, are no state of the core. -/
def State.resetEvent (s : State) : State :=
  { State.reset with nMax := s.nMax, epoch := s.epoch + 1, rdata := s.rdata, order := s.order }

end Sys2Proof.Machine
end

