-- ==== Sys2Proof/Machine/Operands.lean ====
section
/-! DEFINITION. The operand forms of the two bus operations: the defined access, the address decode, and what each register reads
as and stores (20_memory.md R34 to R36; 30_encoding.md R50, R51; 10_state.md R16 to R29). -/

namespace Sys2Proof.Machine

/-- What an address selects (30_encoding.md R50). -/
inductive Reg where
  | id
  | caps
  | ctrl
  | status
  | cmd
  | blockLen
  | sampleRate
  | resultSeq
  | errInfo
  | result (k : Fin 88)
  | freq (k : Fin 88)
  | sample (i : Nat)
  | unmapped
  deriving DecidableEq, Repr

/-- The only defined access: SIZE = 3 and ADDR[2:0] = 0 (20_memory.md R36). -/
def definedAccess (a : BitVec 24) (size : BitVec 2) : Bool := size == 3#2 && a.extractLsb' 0 3 == 0#3

/-- `select(a)` of R50, for an instance with the given N_MAX. -/
def select (nMax : Nat) (a : BitVec 24) : Reg :=
  if a.toNat = 0x0000 then .id
  else if a.toNat = 0x0008 then .caps
  else if a.toNat = 0x0010 then .ctrl
  else if a.toNat = 0x0018 then .status
  else if a.toNat = 0x0020 then .cmd
  else if a.toNat = 0x0028 then .blockLen
  else if a.toNat = 0x0030 then .sampleRate
  else if a.toNat = 0x0038 then .resultSeq
  else if a.toNat = 0x0040 then .errInfo
  else if h : 0x1000 ≤ a.toNat ∧ a.toNat < 0x1000 + 8 * 88 then .result ⟨(a.toNat - 0x1000) / 8, by omega⟩
  else if h : 0x2000 ≤ a.toNat ∧ a.toNat < 0x2000 + 8 * 88 then .freq ⟨(a.toNat - 0x2000) / 8, by omega⟩
  else if 0x10000 ≤ a.toNat ∧ a.toNat < 0x10000 + 8 * nMax then .sample ((a.toNat - 0x10000) / 8)
  else .unmapped

/-- `CAPS` (10_state.md R18): N_MAX in [31:0], 88 in [39:32], HAS_HANN in [40]. -/
def capsValue (nMax : Nat) : Word := 0#23 ++ Config.hasHann ++ BitVec.ofNat 8 Config.numNotes ++ BitVec.ofNat 32 nMax

/-- What a register reads as (45_host_access.md R96). `CMD` has no storage and reads 0 (R21); an unmapped address reads 0 (R34). -/
def State.readReg (s : State) : Reg → Word
  | .id => Config.idValue
  | .caps => capsValue s.nMax
  | .ctrl => s.ctrl.pack
  | .status => s.status.pack
  | .cmd => 0#64
  | .blockLen => s.blockLen.setWidth 64
  | .sampleRate => s.sampleRate
  | .resultSeq => s.resultSeq
  | .errInfo => s.errInfo
  | .result k => s.result[k]
  | .freq k => Machine.freq k
  | .sample i => s.sampleAt i
  | .unmapped => 0#64

/-- The byte at byte address `a` of the register port (R35): lane `a mod 8` of the register at `a − a mod 8`. No defined access
moves less than a register (R36), so this is a view for statements, not an access. -/
def State.portByte (s : State) (a : BitVec 24) : Byte :=
  byteLane (s.readReg (select s.nMax (a &&& 0xFFFFF8#24))) (a.toNat % 8)

/-- The value stored to `BLOCK_LEN`: bits [31:0]; bits [63:32] are ignored (R22). -/
def blockLenOf (w : Word) : BitVec 32 := w.extractLsb' 0 32

end Sys2Proof.Machine
end

