-- ==== Sys2Proof/Machine/Magnitude.lean ====
section
/-! DEFINITION. The per-frequency magnitude unit (42_magnitude.md R68 to R72). Which bits a magnitude has is a free value; the
window (41_window.md) is folded into it, because the working copy is never visible (R65, R75; log 6). -/

namespace Sys2Proof.Machine

/-- The value a magnitude takes for a free pattern: a finite one is given sign bit 0, a non-finite one is kept. Its values are
exactly those R72 allows. -/
def nonNegative (w : Word) : Word := if isFinite w then w &&& 0x7FFFFFFFFFFFFFFF#64 else w

/-- A magnitude function with the properties R70, R71 and R72, made of an arbitrary one: it sees only the first N samples, sees
WIN_SEL only if WIN_EN is set, gives +0.0 for an all-zero block and is never negative. A function that has those properties
is not changed by it (`constrain_of_lawful`), so nothing else is assumed (R69). -/
def constrain (f : Config.MagFn) : Config.MagFn := fun samples n rate winEn winSel k =>
  if (samples.take n).all isZero then 0x0000000000000000#64
  else nonNegative (f (samples.take n) n rate winEn (if winEn then winSel else 0#2) k)

/-- N, the number of samples of the block: `BLOCK_LEN[31:0]` (R22). -/
def State.blockSize (s : State) : Nat := s.blockLen.toNat

/-- The block `SAMPLE[0..N)` (00_scope.md R13). -/
def State.block (s : State) : List Word := (List.range s.blockSize).map s.sampleAt

/-- MAGNITUDE(k) (R68) with magnitude function `f`, on the inputs the registers hold. -/
def State.magnitudeWith (f : Config.MagFn) (s : State) (k : Fin 88) : Word :=
  constrain f s.block s.blockSize s.sampleRate s.ctrl.winEn s.ctrl.winSel k

end Sys2Proof.Machine
end

