-- ==== Sys2Proof/Machine/Block.lean ====
section
/-! DEFINITION. The block sequencer (44_block_process.md): START, and the core's own step COMPLETE with its checks. -/

namespace Sys2Proof.Machine

/-! ### Cause codes of ERR_CAUSE (60_exceptions.md R104) -/

def causeNone : BitVec 4 := 0#4
def causeLenZero : BitVec 4 := 1#4
def causeLenOne : BitVec 4 := 2#4
def causeLenOver : BitVec 4 := 3#4
def causeRateInvalid : BitVec 4 := 4#4
def causeSampleNonfinite : BitVec 4 := 5#4
def causeResultNonfinite : BitVec 4 := 6#4

/-- START (R84): accepted while IDLE; while BUSY it only sets OVERRUN (R85). -/
def execStart (s : State) : Host.Outcome State Fault Refusal :=
  if s.status.busy then .next s.flagOverrun
  else .next ((s.setStatus s.status.started).setErrInfo 0#64)

/-- The lowest i < N whose sample is not finite (R88). -/
def State.firstBadSample (s : State) : Option Nat :=
  (List.range s.blockSize).find? (fun i => !isFinite (s.sampleAt i))

/-- `validate(N, R)` (R88): the cause code and the info value; code 0 means the block is valid. The first condition that holds
decides. -/
def State.validate (s : State) : BitVec 4 × Word :=
  if s.blockSize = 0 then (causeLenZero, 0#64)
  else if s.blockSize = 1 then (causeLenOne, 0#64)
  else if s.blockSize > s.nMax then (causeLenOver, 0#64)
  else if !rateValid s.sampleRate then (causeRateInvalid, 0#64)
  else match s.firstBadSample with
    | some i => (causeSampleNonfinite, BitVec.ofNat 64 i)
    | none => (causeNone, 0#64)

/-- The lowest note whose magnitude is not finite (R89). -/
def State.firstBadNote (f : Config.MagFn) (s : State) : Option (Fin 88) :=
  (List.finRange 88).find? (fun k => !isFinite (s.magnitudeWith f k))

/-- COMPLETE (R87) with magnitude function `f`: validate, compute the 88 magnitudes, check them, commit or fail. -/
def State.completeWith (f : Config.MagFn) (s : State) : State :=
  if s.validate.1 ≠ causeNone then s.takeInvalidBlock s.validate.1 s.validate.2
  else match s.firstBadNote f with
    | some k => s.takeInvalidBlock causeResultNonfinite (BitVec.ofNat 64 k.val)
    | none => s.commit (Vector.ofFn (s.magnitudeWith f))

/-- COMPLETE (R87): the machine's magnitude function is the free one (R69). -/
def State.complete (s : State) : State := s.completeWith Config.rawMagnitude

/-- The core's turn in the order of R39: COMPLETE is enabled exactly while BUSY (R87); an IDLE core does nothing (R116; log 2). -/
def State.coreTurn (s : State) : State := if s.status.busy then s.complete else s

end Sys2Proof.Machine
end

