-- ==== Sys2Proof/Machine/HostAccess.lean ====
section
/-! DEFINITION. The bus operations and the housekeeping commands (45_host_access.md). -/

namespace Sys2Proof.Machine

/-- NOP (R98): no state changes. -/
def execNop (s : State) : Host.Outcome State Fault Refusal := .next s

/-- CLEAR_STATUS (R99): every STATUS field but BUSY, and ERR_INFO. -/
def execClearStatus (s : State) : Host.Outcome State Fault Refusal :=
  .next ((s.setStatus s.status.cleared).setErrInfo 0#64)

/-- A CMD write executes the decoded command; a reserved word only sets BAD_CMD (30_encoding.md R49; R100). -/
def runCommand (c : Option Command) (s : State) : Host.Outcome State Fault Refusal :=
  match c with
  | some .nop => execNop s
  | some .start => execStart s
  | some .clearStatus => execClearStatus s
  | none => .next s.flagBadCmd

/-- A read the port does not define returns 0 and sets BAD_ACCESS (20_memory.md R34, R36). -/
def State.badRead (s : State) : State := s.flagBadAccess.setRdata 0#64

/-- BUS_READ (R96). -/
def execBusRead (a : BitVec 24) (size : BitVec 2) (s : State) : Host.Outcome State Fault Refusal :=
  if definedAccess a size then
    match select s.nMax a with
    | .unmapped => .next s.badRead
    | r => .next (s.setRdata (s.readReg r))
  else .next s.badRead

/-- A defined write of `w` to the register `r` (R97). -/
def writeReg (r : Reg) (w : Word) (s : State) : Host.Outcome State Fault Refusal :=
  match r with
  | .id | .caps | .status | .resultSeq | .errInfo | .result _ | .freq _ | .unmapped => .next s.flagBadAccess
  | .cmd => runCommand (decodeCmd w) s
  | .ctrl => .next (s.protectedWrite (s.setCtrl (s.ctrl.write w)))
  | .blockLen => .next (s.protectedWrite (s.setBlockLen (blockLenOf w)))
  | .sampleRate => .next (s.protectedWrite (s.setSampleRate w))
  | .sample i => .next (s.protectedWrite (s.writeSample i w))

/-- BUS_WRITE (R97). -/
def execBusWrite (a : BitVec 24) (size : BitVec 2) (w : Word) (s : State) : Host.Outcome State Fault Refusal :=
  if definedAccess a size then writeReg (select s.nMax a) w s
  else .next s.flagBadAccess

end Sys2Proof.Machine
end

