-- ==== Sys2Proof/Machine/Dispatch.lean ====
section
/-! DEFINITION. One arm per instruction (30_encoding.md R52). -/

namespace Sys2Proof.Machine

def exec (i : Instr) (s : State) : Host.Outcome State Fault Refusal :=
  match i with
  | .busRead addr size => Sys2Proof.Machine.execBusRead addr size s
  | .busWrite addr size wdata => Sys2Proof.Machine.execBusWrite addr size wdata s
  | .nop => Sys2Proof.Machine.execNop s
  | .start => Sys2Proof.Machine.execStart s
  | .clearStatus => Sys2Proof.Machine.execClearStatus s

end Sys2Proof.Machine
end

