-- ==== Sys2Proof/Machine/Step.lean ====
section
/-! DEFINITION. One step: the next event of the total order of 20_memory.md R39. -/

namespace Sys2Proof.Machine

/-- One step takes the front event off the order and performs it (R39): an access runs the decoded instruction, the core takes
its turn, or the platform resets it. With no event waiting, a BUSY core completes and an IDLE core stays as it is (R94, R116;
log 1). -/
def step (s : State) : Host.Outcome State Fault Refusal :=
  match s.order with
  | [] => .next s.coreTurn
  | .access r :: rest =>
    match decode r with
    | .ok i => exec i (s.setOrder rest)
    | .error .reservedField => .refused .illFormedRequest
  | .core :: rest => .next (s.setOrder rest).coreTurn
  | .reset :: rest => .next (s.setOrder rest).resetEvent

/-- The state with the request of an opcode-table word placed first in the order, so that the very next step fetches and runs it
(log 12). -/
def State.withFetchWord (s : State) (nbits w : Nat) : State :=
  s.setOrder (.access (requestOfTableWord nbits w) :: s.order)

end Sys2Proof.Machine
end

