-- ==== Sys2Proof/Machine/HostProgram.lean ====
section
/-! DEFINITION. The assembler notation of a host program (30_encoding.md R55, R56; 45_host_access.md R101). The program, its
branches and its program counter are a bus master's own, outside the core; here is what its lines put on the port. -/

namespace Sys2Proof.Machine

/-- `<loc>` (R55): a register, an array element, or a raw offset. -/
inductive Loc where
  | id
  | caps
  | ctrl
  | status
  | cmd
  | blockLen
  | sampleRate
  | resultSeq
  | errInfo
  | result (k : Fin 88)
  | freq (k : Fin 88)
  | sample (i : Nat)
  | raw (a : BitVec 24)
  deriving DecidableEq, Repr

/-- The offset of a location (R16). DESIGN CHOICE (log 21): SAMPLE[i] with i ≥ N_MAX is no element, and the spec gives the notation no
offset for it; here it is 0x10000 + 8i modulo 2^24, which from i = 0x1FE000 on is the address of something else. -/
def Loc.addr : Loc → BitVec 24
  | .id => 0x000000#24
  | .caps => 0x000008#24
  | .ctrl => 0x000010#24
  | .status => 0x000018#24
  | .cmd => 0x000020#24
  | .blockLen => 0x000028#24
  | .sampleRate => 0x000030#24
  | .resultSeq => 0x000038#24
  | .errInfo => 0x000040#24
  | .result k => BitVec.ofNat 24 (0x1000 + 8 * k.val)
  | .freq k => BitVec.ofNat 24 (0x2000 + 8 * k.val)
  | .sample i => BitVec.ofNat 24 (0x10000 + 8 * i)
  | .raw a => a

/-- A line that reaches the port (R55). -/
inductive Line where
  | rd (l : Loc)
  | wr (l : Loc) (v : Word)
  deriving DecidableEq, Repr

/-- The request of a line: an 8-byte access (R55). -/
def Line.request : Line → Request
  | .rd l => ⟨descriptorOf l.addr 3#2 0#1, 0#64⟩
  | .wr l v => ⟨descriptorOf l.addr 3#2 1#1, v⟩

/-- `start` (R56). -/
def lineStart : Line := .wr .cmd 0x1#64

/-- `nop` (R56). -/
def lineNop : Line := .wr .cmd 0x0#64

/-- `clrst` (R56). -/
def lineClrst : Line := .wr .cmd 0x2#64

/-- The integer nearest to num / den, ties to even. -/
def roundHalfEven (num den : Nat) : Nat :=
  let q := num / den
  let r := num % den
  if 2 * r < den then q
  else if den < 2 * r then q + 1
  else if q % 2 = 0 then q else q + 1

/-- ⌊log2 (num / den)⌋ for positive num and den. -/
def floorLog2Ratio (num den : Nat) : Int :=
  let t : Int := (Nat.log2 num : Int) - (Nat.log2 den : Int)
  if den * 2 ^ t.toNat ≤ num * 2 ^ (-t).toNat then t else t - 1

/-- `f64(<decimal>)` (R55): the binary64 pattern nearest ±num/den, ties to even. A value too large for the format gives the
infinity of its sign (PRESUMED, IEEE-754; log 17). A decimal written with a minus sign whose nearest value is zero gives −0.0: R55
leaves open which of the two zeros it is (PRESUMED, IEEE-754; log 22). -/
def f64Literal (neg : Bool) (num den : Nat) : Word :=
  let magnitude : Nat :=
    if num = 0 then 0
    else
      let e : Nat := (floorLog2Ratio num den + 1023).toNat
      let e : Nat := if e = 0 then 1 else e
      let m : Nat := roundHalfEven (num * 2 ^ (1075 - e)) (den * 2 ^ (e - 1075))
      min ((e - 1) * 2 ^ 52 + m) (0x7FF * 2 ^ 52)
  BitVec.ofBool neg ++ BitVec.ofNat 63 magnitude

/-- `wrf <loc>, <decimal>` (R56). -/
def lineWrf (l : Loc) (neg : Bool) (num den : Nat) : Line := .wr l (f64Literal neg num den)

/-- A pseudo-instruction that loops (R56): the lines of one pass, and whether the values read send it round again. The branch is
the host's own (R101). -/
structure HostLoop where
  pass : List Line
  again : List Word → Bool

/-- `wait_idle` (R56): read STATUS while its bit 0 is 1. -/
def waitIdle : HostLoop :=
  { pass := [.rd .status]
    again := fun vs => (vs.getD 0 0#64).getLsbD 0 }

/-- `rdvec` (R56, R41): RESULT_SEQ, the 88 elements, RESULT_SEQ again; once more if the two counts differ. -/
def rdvec : HostLoop :=
  { pass := .rd .resultSeq :: (List.finRange 88).map (fun k => .rd (.result k)) ++ [.rd .resultSeq]
    again := fun vs => vs.getD 0 0#64 != vs.getD 89 0#64 }

end Sys2Proof.Machine
end

