-- ==== Sys2Proof/Machine/Ideal.lean ====
section
/-! DEFINITION. The ideal values in exact real arithmetic (00_scope.md R11): the window (41_window.md R57 to R59), the ideal
magnitude (42_magnitude.md R66, R68), the ideal target frequency (43_note_map.md R79), and what R73 and R74 ask of a magnitude
function. No step of the machine uses this file: an ideal value is not what the hardware returns (R11). -/

namespace Sys2Proof.Machine

noncomputable section

open Real

/-- The number a finite pattern denotes, as a real (R10). -/
def toReal (w : Word) : ℝ := (f64Value w : ℝ)

/-- α (R57, R58; the Hann value is marked general knowledge by the spec, K1): 0.54 for Hamming, 0.5 for Hann. -/
def windowAlpha (sel : BitVec 2) : ℝ := if sel = 1#2 then 1 / 2 else 54 / 100

/-- β = 1 − α (R57). -/
def windowBeta (sel : BitVec 2) : ℝ := 1 - windowAlpha sel

/-- The ideal window coefficient w(N, i) (R57). -/
def windowCoeff (sel : BitVec 2) (n i : ℕ) : ℝ :=
  windowAlpha sel - windowBeta sel * cos (2 * π * i / ((n : ℝ) - 1))

/-- WINDOW (R59): element `i` of the ideal working block x made of the samples. -/
def workingBlock (winEn : Bool) (sel : BitVec 2) (samples : List Word) (n i : ℕ) : ℝ :=
  if winEn then toReal (samples.getD i 0#64) * windowCoeff sel n i else toReal (samples.getD i 0#64)

/-- θ_i (R66), for rate `r` and target frequency `f`. -/
def phase (r f : ℝ) (i : ℕ) : ℝ := -2 * π * f * (i / r)

/-- The real part of the defining sum (R66); it multiplies, never adds (R67). -/
def sumRe (x : ℕ → ℝ) (n : ℕ) (r f : ℝ) : ℝ := ∑ i ∈ Finset.range n, x i * cos (phase r f i)

/-- The imaginary part of the defining sum (R66). -/
def sumIm (x : ℕ → ℝ) (n : ℕ) (r f : ℝ) : ℝ := ∑ i ∈ Finset.range n, x i * sin (phase r f i)

/-- The ideal magnitude M(x, R, f) (R66). -/
def idealMagnitude (x : ℕ → ℝ) (n : ℕ) (r f : ℝ) : ℝ := sqrt (sumRe x n r f ^ 2 + sumIm x n r f ^ 2) / n

/-- M_k (R68): the ideal magnitude of note `k` for MagFn's operands. -/
def idealNote (samples : List Word) (n : ℕ) (rate : Word) (winEn : Bool) (sel : BitVec 2) (k : Fin 88) : ℝ :=
  idealMagnitude (workingBlock winEn sel samples n) n (toReal rate) (toReal (targetFreq k))

/-- The ideal target frequency F(k) = 27.5 · 2^(k/12) (R79). -/
def idealFreq (k : Fin 88) : ℝ := 275 / 10 * 2 ^ ((k.val : ℝ) / 12)

/-- TOL_REL (R7, R74). -/
def tolRel : ℝ := 1 / 10 ^ 6

/-- The suggested value of the OPEN parameter TOL_ABS (R7; log 7). -/
def tolAbsSuggested : ℝ := 1 / 10 ^ 9

/-- The suggested value of the OPEN parameter CYCLES_MAX (R7; log 7). -/
def cyclesMaxSuggested : ℝ := 2 ^ 20

/-- The nominal envelope (R73), for an instance with the given N_MAX and CYCLES_MAX. -/
def NominalEnvelope (nMax : ℕ) (cyclesMax : ℝ) (samples : List Word) (n : ℕ) (rate : Word) : Prop :=
  (2 ≤ n ∧ n ≤ nMax) ∧
  (samples.length = n ∧ ∀ w ∈ samples, isFinite w = true ∧ |toReal w| ≤ 1) ∧
  (isFinite rate = true ∧ 0 < toReal rate) ∧
  toReal (freq 87) * ((n : ℝ) - 1) / toReal rate ≤ cyclesMax

/-- R74: inside the nominal envelope every magnitude is finite and as close to the ideal one as TOL_REL and TOL_ABS say. A named
property, as R69 asks: a statement that needs it takes it as a hypothesis on the magnitude function (log 7). -/
def Accurate (nMax : ℕ) (tolAbs cyclesMax : ℝ) (f : Config.MagFn) : Prop :=
  ∀ (samples : List Word) (n : ℕ) (rate : Word) (winEn : Bool) (sel : BitVec 2) (k : Fin 88),
    (sel = 0#2 ∨ sel = 1#2) → NominalEnvelope nMax cyclesMax samples n rate →
    isFinite (constrain f samples n rate winEn sel k) = true ∧
    |toReal (constrain f samples n rate winEn sel k) - idealNote samples n rate winEn sel k|
      ≤ tolRel * idealNote samples n rate winEn sel k + tolAbs

end

end Sys2Proof.Machine
end

