-- ==== Sys2Proof/Safety.lean ====
section
/-! DEFINITION. What counts as a good state and a safe run: the invariant of every reachable state, what a step does with the
order, and how many commits a run holds. -/

namespace Sys2Proof.Machine

/-- A legal result vector (10_state.md R27): every element finite with sign bit 0. -/
def ResultLegal (r : Vector Word 88) : Prop := ∀ k : Fin 88, isFinite r[k] = true ∧ f64Sign r[k] = false

/-- The STATUS invariants of 10_state.md R20. -/
def StatusConsistent (t : Status) (info : Word) : Prop :=
  (t.busy = true → t.done = false ∧ t.err = false ∧ t.errCause = causeNone) ∧
  ¬(t.done = true ∧ t.err = true) ∧
  (t.err = false → t.errCause = causeNone ∧ info = 0#64)

/-- The cause codes that are produced (60_exceptions.md R104), each with the ERR_INFO it comes with, for an instance with the
given N_MAX; codes 7 to 15 never. -/
def CauseLegal (nMax : Nat) (t : Status) (info : Word) : Prop :=
  (t.err = true → t.errCause ≠ causeNone) ∧
  t.errCause.toNat ≤ 6 ∧
  (t.errCause = causeSampleNonfinite → info.toNat < nMax) ∧
  (t.errCause = causeResultNonfinite → info.toNat < 88) ∧
  (t.errCause ≠ causeSampleNonfinite → t.errCause ≠ causeResultNonfinite → info = 0#64)

/-- The memory behind SAMPLE is canonical and lies in the SAMPLE window (R16, R29; log 13). -/
def MemoryLegal (nMax : Nat) (m : Memory) : Prop :=
  Memory.wf m = true ∧ ∀ c ∈ m, sampleBase ≤ c.1 ∧ c.1 < sampleBase + 8 * nMax

/-- The invariant of every reachable state. -/
structure State.Inv (s : State) : Prop where
  nMaxLegal : Config.NMaxLegal s.nMax
  winSelLegal : s.ctrl.winSel = 0#2 ∨ s.ctrl.winSel = 1#2
  statusConsistent : StatusConsistent s.status s.errInfo
  causeLegal : CauseLegal s.nMax s.status s.errInfo
  resultLegal : ResultLegal s.result
  memoryLegal : MemoryLegal s.nMax s.mem

/-- No sticky flag is set: the premise D5, D24 and D25 of 92_eei_decisions.md ask a claim about a program to take. -/
def State.noMisuse (s : State) : Bool :=
  !s.status.overrun && !s.status.wrBusy && !s.status.badCmd && !s.status.badAccess

/-- The next step is the core's: its turn comes, or nothing else is waiting (R94; log 1). -/
def State.coreNext (s : State) : Bool :=
  match s.order with
  | [] => true
  | .core :: _ => true
  | .access _ :: _ => false
  | .reset :: _ => false

/-- The next step commits: the core's turn, BUSY, a valid block and 88 finite magnitudes (44_block_process.md R87). -/
def State.commitsNext (s : State) : Bool :=
  s.coreNext && s.status.busy && s.validate.1 == causeNone && (s.firstBadNote Config.rawMagnitude).isNone

/-- How many of the next `n` steps commit. -/
def commitsIn : Nat → State → Nat
  | 0, _ => 0
  | n + 1, s =>
    (if s.commitsNext then 1 else 0) +
      match step s with
      | .next s' => commitsIn n s'
      | .fault _ => 0
      | .refused _ => 0

/-- No reset waits in the order. -/
def State.noReset (s : State) : Prop := Event.reset ∉ s.order

/-- Every request that waits in the order is one the port accepts (30_encoding.md R48). -/
def State.requestsWellFormed (s : State) : Prop :=
  ∀ r, Event.access r ∈ s.order → descReserved r.descriptor = 0#5

end Sys2Proof.Machine
end

