-- ==== Sys2Proof/Certificates/Slice0/Obligations.lean ====
section
/-! DEFINITION. The statements for the provers. Each docstring names the rules of spec/ it rests on; `rdata`, `order`, `epoch` and
the free draws are the model's own (log 1, log 3, log 4), and no statement rests on a value of theirs at reset. -/

open Sys2Proof Sys2Proof.Machine

/-! ### Encoding -/

/-- Decode and encode agree on every well-formed instruction, every operand at every value (30_encoding.md R47 to R49, R52). -/
def Obligations.DecodeOfEncodeIsTheInstruction : Prop :=
  ∀ i : Instr, i.wellFormed = true → decode (encode i) = .ok i

/-- What the decoder accepts is a well-formed instruction, and encoding it gives the request back; a read carries no write data,
so its write data is not kept (R47, R48; log 10, log 11). -/
def Obligations.EncodeOfDecodeIsTheRequest : Prop :=
  ∀ (r : Request) (i : Instr), decode r = .ok i →
    i.wellFormed = true ∧ (encode i).descriptor = r.descriptor ∧
    (encode i).wdata = (if r.descriptor.getLsbD 0 then r.wdata else 0#64)

/-- The fields of a descriptor, bit by bit (R48): ADDR in [31:8], SIZE in [2:1], WE in [0]; any nonzero [7:3] is refused by name and
nothing else is. A write is the instruction with the effect of BUS_WRITE of the three operands (the commands included). -/
def Obligations.DescriptorFieldsSelectTheOperation : Prop :=
  ∀ (d : BitVec 32) (w : Word),
    (d.extractLsb' 3 5 ≠ 0#5 → decode ⟨d, w⟩ = .error .reservedField) ∧
    (d.extractLsb' 3 5 = 0#5 → d.getLsbD 0 = false →
      decode ⟨d, w⟩ = .ok (.busRead (d.extractLsb' 8 24) (d.extractLsb' 1 2))) ∧
    (d.extractLsb' 3 5 = 0#5 → d.getLsbD 0 = true →
      ∃ i, decode ⟨d, w⟩ = .ok i ∧ ∀ s, exec i s = exec (.busWrite (d.extractLsb' 8 24) (d.extractLsb' 1 2) w) s)

/-- R49: the only legal CMD words are 0, 1 and 2, each its command; every other word is BAD_CMD. -/
def Obligations.OnlyThreeCommandWordsAreLegal : Prop :=
  ∀ w : Word,
    (decodeCmd w = some .nop ↔ w = 0x0000000000000000#64) ∧
    (decodeCmd w = some .start ↔ w = 0x0000000000000001#64) ∧
    (decodeCmd w = some .clearStatus ↔ w = 0x0000000000000002#64) ∧
    (decodeCmd w = none ↔ (w.extractLsb' 8 56 ≠ 0#56 ∨ 3 ≤ (w.extractLsb' 0 8).toNat))

/-- Words written out from the tables of 30_encoding.md R48, R49 and 95_test_vectors.md decode to what they stand for. -/
def Obligations.WrittenOutWordsDecode : Prop :=
  decode ⟨0x00218006#32, 0#64⟩ = .ok (.busRead 0x002180#24 3#2) ∧
  decode ⟨0x00000406#32, 0#64⟩ = .ok (.busRead 0x000004#24 3#2) ∧
  decode ⟨0x00000004#32, 0#64⟩ = .ok (.busRead 0x000000#24 2#2) ∧
  decode ⟨0x01000007#32, 0x3FF0000000000000#64⟩ = .ok (.busWrite 0x010000#24 3#2 0x3FF0000000000000#64) ∧
  decode ⟨0x00002005#32, 0x1#64⟩ = .ok (.busWrite 0x000020#24 2#2 0x1#64) ∧
  decode ⟨0x00002007#32, 0x0#64⟩ = .ok .nop ∧
  decode ⟨0x00002007#32, 0x1#64⟩ = .ok .start ∧
  decode ⟨0x00002007#32, 0x2#64⟩ = .ok .clearStatus ∧
  decode ⟨0x00002007#32, 0x101#64⟩ = .ok (.busWrite 0x000020#24 3#2 0x101#64) ∧
  decode ⟨0x0000000E#32, 0#64⟩ = .error .reservedField

/-! ### A step -/

/-- A step runs the decoded instruction: when the next event is an access whose words decode to `i`, the step is exec of `i` on the
state with that event taken off the order, and nothing else is put around it (20_memory.md R39; log 1). -/
def Obligations.StepRunsTheDecodedInstruction : Prop :=
  ∀ (s : State) (r : Request) (rest : List Event) (i : Instr),
    s.order = .access r :: rest → decode r = .ok i → step s = exec i { s with order := rest }

/-- The other events: the core's turn performs COMPLETE exactly while BUSY and changes nothing while IDLE, and with no event waiting
the turn is the core's (44_block_process.md R87, R94; 60_exceptions.md R116; the empty order is the model's own reading, log 1). -/
def Obligations.CoreTurnCompletesExactlyWhileBusy : Prop :=
  ∀ (s : State) (rest : List Event),
    (s.order = .core :: rest → s.status.busy = true → step s = .next (State.complete { s with order := rest })) ∧
    (s.order = .core :: rest → s.status.busy = false → step s = .next { s with order := rest }) ∧
    (s.order = [] → s.status.busy = true → step s = .next s.complete) ∧
    (s.order = [] → s.status.busy = false → step s = .next s)

/-- No error stops the core (60_exceptions.md R103): a step answers a next state, unless the decoder refuses a request with a nonzero
reserved field, and then the refusal is by that name (R48). -/
def Obligations.OnlyAnIllFormedRequestStopsAStep : Prop :=
  ∀ s : State,
    (∃ t, step s = .next t) ∨
    (∃ r rest, s.order = .access r :: rest ∧ r.descriptor.extractLsb' 3 5 ≠ 0#5 ∧ step s = .refused .illFormedRequest)

/-! ### The registers -/

/-- `ID` (10_state.md R17): what it reads, its bytes, and a write to it. -/
def Obligations.IdReadsItsConstantAndRefusesWrites : Prop :=
  ∀ (s : State) (w : Word),
    exec (.busRead 0x000000#24 3#2) s = .next { s with rdata := 0x4348524F4D460001#64 } ∧
    exec (.busWrite 0x000000#24 3#2 w) s = .next { s with status := { s.status with badAccess := true } } ∧
    (0x4348524F4D460001#64 : Word).extractLsb' 0 16 = 0x0001#16 ∧
    (List.range 6).map (fun j => ((0x4348524F4D460001#64 : Word).extractLsb' (56 - 8 * j) 8).toNat) =
      ['C'.toNat, 'H'.toNat, 'R'.toNat, 'O'.toNat, 'M'.toNat, 'F'.toNat]

/-- `CAPS` (10_state.md R18), for every legal N_MAX. The last clause is no sentence of R18: N_MAX, and with it CAPS and the address map,
never changes, which rests on the fixed map of 20_memory.md R33 and on N_MAX being a field of the state that no step changes (log 5,
DESIGN CHOICE). -/
def Obligations.CapsReportsTheParameters : Prop :=
  (∀ (s : State) (w : Word), Config.NMaxLegal s.nMax →
    (∃ v : Word, exec (.busRead 0x000008#24 3#2) s = .next { s with rdata := v } ∧
      (v.extractLsb' 0 32).toNat = s.nMax ∧ v.extractLsb' 32 8 = 88#8 ∧ v.extractLsb' 40 1 = 1#1 ∧ v.extractLsb' 41 23 = 0#23 ∧
      (s.nMax = 4096 → v = 0x0000015800001000#64)) ∧
    exec (.busWrite 0x000008#24 3#2 w) s = .next { s with status := { s.status with badAccess := true } }) ∧
  (∀ s t : State, step s = .next t → t.nMax = s.nMax)

/-- `CTRL` (10_state.md R19): its layout, a write while IDLE and a write while BUSY; its reset value. -/
def Obligations.CtrlReadsAndWritesItsFields : Prop :=
  (∀ (s : State) (w : Word),
    (∃ v : Word, exec (.busRead 0x000010#24 3#2) s = .next { s with rdata := v } ∧
      v.getLsbD 0 = s.ctrl.winEn ∧ v.extractLsb' 1 2 = s.ctrl.winSel ∧ v.getLsbD 3 = s.ctrl.irqEn ∧
      v.extractLsb' 4 60 = 0#60) ∧
    (s.status.busy = false → exec (.busWrite 0x000010#24 3#2 w) s = .next { s with ctrl :=
      { winEn := w.getLsbD 0
        winSel := if (w.extractLsb' 1 2).toNat ≤ 1 then w.extractLsb' 1 2 else s.ctrl.winSel
        irqEn := w.getLsbD 3 } }) ∧
    (s.status.busy = true → exec (.busWrite 0x000010#24 3#2 w) s = .next { s with status := { s.status with wrBusy := true } })) ∧
  State.reset.ctrl = { winEn := true, winSel := 0#2, irqEn := false }

/-- `STATUS` (10_state.md R20): the place of every field on the bus, and a write to it, which only sets BAD_ACCESS. -/
def Obligations.StatusReadsItsFields : Prop :=
  ∀ (s : State) (w : Word),
    (∃ v : Word, exec (.busRead 0x000018#24 3#2) s = .next { s with rdata := v } ∧
      v.getLsbD 0 = s.status.busy ∧ v.getLsbD 1 = s.status.done ∧ v.getLsbD 2 = s.status.err ∧ v.getLsbD 3 = false ∧
      v.extractLsb' 4 4 = s.status.errCause ∧ v.getLsbD 8 = s.status.overrun ∧ v.getLsbD 9 = s.status.wrBusy ∧
      v.getLsbD 10 = s.status.badCmd ∧ v.getLsbD 11 = s.status.badAccess ∧ v.extractLsb' 12 52 = 0#52) ∧
    exec (.busWrite 0x000018#24 3#2 w) s = .next { s with status := { s.status with badAccess := true } }

/-- `CMD` (10_state.md R21): a read returns 0 and has no effect; a write issues the command of R49, BUSY or not. -/
def Obligations.CmdHasNoStorageAndIssuesCommands : Prop :=
  ∀ (s : State) (w : Word),
    exec (.busRead 0x000020#24 3#2) s = .next { s with rdata := 0#64 } ∧
    (w = 0x0#64 → exec (.busWrite 0x000020#24 3#2 w) s = exec .nop s) ∧
    (w = 0x1#64 → exec (.busWrite 0x000020#24 3#2 w) s = exec .start s) ∧
    (w = 0x2#64 → exec (.busWrite 0x000020#24 3#2 w) s = exec .clearStatus s) ∧
    (w ≠ 0x0#64 → w ≠ 0x1#64 → w ≠ 0x2#64 →
      exec (.busWrite 0x000020#24 3#2 w) s = .next { s with status := { s.status with badCmd := true } })

/-- `BLOCK_LEN` (10_state.md R22): bits [31:0] are stored whatever they are, bits [63:32] are ignored and read as 0; a write while
BUSY is dropped (R86); reset value 0. -/
def Obligations.BlockLenStoresItsLowHalf : Prop :=
  (∀ (s : State) (w : Word),
    (∃ v : Word, exec (.busRead 0x000028#24 3#2) s = .next { s with rdata := v } ∧
      v.extractLsb' 0 32 = s.blockLen ∧ v.extractLsb' 32 32 = 0#32) ∧
    (s.status.busy = false → exec (.busWrite 0x000028#24 3#2 w) s = .next { s with blockLen := w.extractLsb' 0 32 }) ∧
    (s.status.busy = true → exec (.busWrite 0x000028#24 3#2 w) s = .next { s with status := { s.status with wrBusy := true } })) ∧
  State.reset.blockLen = 0#32

/-- `SAMPLE_RATE` (10_state.md R23): every pattern is stored as written; reset value +0.0, which is not a valid rate. -/
def Obligations.SampleRateStoresEveryPattern : Prop :=
  (∀ (s : State) (w : Word),
    exec (.busRead 0x000030#24 3#2) s = .next { s with rdata := s.sampleRate } ∧
    (s.status.busy = false → exec (.busWrite 0x000030#24 3#2 w) s = .next { s with sampleRate := w }) ∧
    (s.status.busy = true → exec (.busWrite 0x000030#24 3#2 w) s = .next { s with status := { s.status with wrBusy := true } })) ∧
  State.reset.sampleRate = 0x0000000000000000#64 ∧
  (∀ s : State, s.sampleRate = State.reset.sampleRate → 2 ≤ s.blockLen.toNat → s.blockLen.toNat ≤ s.nMax →
    s.validate = (4#4, 0#64))

/-- `RESULT_SEQ` and `ERR_INFO` (10_state.md R24, R25): a read returns them, a write changes nothing but BAD_ACCESS. -/
def Obligations.ResultSeqAndErrInfoAreReadOnly : Prop :=
  ∀ (s : State) (w : Word),
    exec (.busRead 0x000038#24 3#2) s = .next { s with rdata := s.resultSeq } ∧
    exec (.busRead 0x000040#24 3#2) s = .next { s with rdata := s.errInfo } ∧
    exec (.busWrite 0x000038#24 3#2 w) s = .next { s with status := { s.status with badAccess := true } } ∧
    exec (.busWrite 0x000040#24 3#2 w) s = .next { s with status := { s.status with badAccess := true } }

/-- `RESULT[k]` (10_state.md R27) at 0x1000 + 8k: a read returns the element, BUSY or not; a write changes nothing but BAD_ACCESS. -/
def Obligations.ResultElementsAreReadOnly : Prop :=
  ∀ (s : State) (k : Fin 88) (w : Word),
    exec (.busRead (BitVec.ofNat 24 (0x1000 + 8 * k.val)) 3#2) s = .next { s with rdata := s.result[k] } ∧
    exec (.busWrite (BitVec.ofNat 24 (0x1000 + 8 * k.val)) 3#2 w) s =
      .next { s with status := { s.status with badAccess := true } }

/-- `FREQ[k]` (10_state.md R28) at 0x2000 + 8k: a read returns the ROM word of 43_note_map.md R81 in every state, so reset does not
change it; a write changes nothing but BAD_ACCESS. -/
def Obligations.FreqElementsReadTheRom : Prop :=
  ∀ (s : State) (k : Fin 88) (w : Word),
    exec (.busRead (BitVec.ofNat 24 (0x2000 + 8 * k.val)) 3#2) s = .next { s with rdata := freqRom.getD k.val 0#64 } ∧
    exec (.busWrite (BitVec.ofNat 24 (0x2000 + 8 * k.val)) 3#2 w) s =
      .next { s with status := { s.status with badAccess := true } }

/-- `SAMPLE[i]` (10_state.md R29) at 0x10000 + 8i, for every legal N_MAX: a read returns the element; a write while IDLE stores every
pattern as written, is read back, and leaves every other element; a write while BUSY is dropped (R86). -/
def Obligations.SampleElementsReadAndStore : Prop :=
  ∀ (s : State) (i : Nat) (w : Word), Config.NMaxLegal s.nMax → i < s.nMax →
    exec (.busRead (BitVec.ofNat 24 (0x10000 + 8 * i)) 3#2) s = .next { s with rdata := s.sampleAt i } ∧
    (s.status.busy = false →
      ∃ m, exec (.busWrite (BitVec.ofNat 24 (0x10000 + 8 * i)) 3#2 w) s = .next { s with mem := m } ∧
        State.sampleAt { s with mem := m } i = w ∧ ∀ j, j ≠ i → State.sampleAt { s with mem := m } j = s.sampleAt j) ∧
    (s.status.busy = true → exec (.busWrite (BitVec.ofNat 24 (0x10000 + 8 * i)) 3#2 w) s =
      .next { s with status := { s.status with wrBusy := true } })

/-- The byte order of the port (20_memory.md R35): byte j of the register at offset A is at byte address A + j and is bits
[8j+7 : 8j] of its value; in the SAMPLE window that byte is the byte the memory holds; and a store to SAMPLE[i] writes the eight bytes
of its element and leaves every other. -/
def Obligations.ThePortIsLittleEndian : Prop :=
  (∀ (s : State) (a : BitVec 24) (j : Nat), a.toNat % 8 = 0 → j < 8 →
    s.portByte (a + BitVec.ofNat 24 j) = (s.readReg (select s.nMax a)).extractLsb' (8 * j) 8) ∧
  (∀ (s : State) (a : BitVec 24), 0x10000 ≤ a.toNat → a.toNat < 0x10000 + 8 * s.nMax → s.portByte a = s.readByte a.toNat) ∧
  (∀ (s : State) (i : Nat) (w : Word), Config.NMaxLegal s.nMax → i < s.nMax → s.status.busy = false →
    ∃ t, exec (.busWrite (BitVec.ofNat 24 (0x10000 + 8 * i)) 3#2 w) s = .next t ∧
      (∀ j < 8, t.readByte (0x10000 + 8 * i + j) = w.extractLsb' (8 * j) 8) ∧
      (∀ a, a < 0x10000 + 8 * i ∨ 0x10000 + 8 * i + 8 ≤ a → t.readByte a = s.readByte a))

/-! ### Accesses the port does not define -/

/-- Unmapped addresses (20_memory.md R34): a read returns 0, a write changes nothing, both set BAD_ACCESS and complete. -/
def Obligations.UnmappedAccessOnlyFlags : Prop :=
  ∀ (s : State) (a : BitVec 24) (w : Word), Config.NMaxLegal s.nMax → a.toNat % 8 = 0 →
    ((0x0048 ≤ a.toNat ∧ a.toNat ≤ 0x0FFF) ∨ (0x12C0 ≤ a.toNat ∧ a.toNat ≤ 0x1FFF) ∨
      (0x22C0 ≤ a.toNat ∧ a.toNat ≤ 0xFFFF) ∨ 0x10000 + 8 * s.nMax ≤ a.toNat) →
    exec (.busRead a 3#2) s = .next { s with rdata := 0#64, status := { s.status with badAccess := true } } ∧
    exec (.busWrite a 3#2 w) s = .next { s with status := { s.status with badAccess := true } }

/-- Undefined accesses (20_memory.md R36): a size other than 8 bytes, or a misaligned address, mapped or not. -/
def Obligations.UndefinedAccessOnlyFlags : Prop :=
  ∀ (s : State) (a : BitVec 24) (size : BitVec 2) (w : Word), size ≠ 3#2 ∨ a.extractLsb' 0 3 ≠ 0#3 →
    exec (.busRead a size) s = .next { s with rdata := 0#64, status := { s.status with badAccess := true } } ∧
    exec (.busWrite a size w) s = .next { s with status := { s.status with badAccess := true } }

/-! ### Frames of the bus operations -/

/-- BUS_READ of every form completes and leaves everything but RDATA, and BAD_ACCESS when the access is undefined or unmapped
(20_memory.md R37; 45_host_access.md R96). -/
def Obligations.BusReadChangesOnlyRdataAndBadAccess : Prop :=
  ∀ (s : State) (a : BitVec 24) (size : BitVec 2),
    ∃ (v : Word) (b : Bool),
      exec (.busRead a size) s =
        .next { s with rdata := v, status := { s.status with badAccess := s.status.badAccess || b } } ∧
      (b = true ↔ (definedAccess a size = false ∨ select s.nMax a = .unmapped)) ∧
      (b = true → v = 0#64) ∧ (b = false → v = s.readReg (select s.nMax a))

/-- Reads of defined registers are idempotent (20_memory.md R37): reading the same register again returns the same value, and any
other read in between changes nothing it returns. -/
def Obligations.ReadsAreIdempotent : Prop :=
  ∀ (s t u v : State) (a b : BitVec 24), definedAccess a 3#2 = true → select s.nMax a ≠ .unmapped →
    definedAccess b 3#2 = true → select s.nMax b ≠ .unmapped →
    exec (.busRead a 3#2) s = .next t → exec (.busRead b 3#2) t = .next u → exec (.busRead a 3#2) u = .next v → v = t

/-- BUS_WRITE of every form completes; RESULT, RESULT_SEQ, RDATA, the parameter and the order are never written by it, and a form
that does not store to SAMPLE leaves every byte of it (45_host_access.md R97). -/
def Obligations.BusWriteCompletesWithItsFrame : Prop :=
  ∀ (s : State) (a : BitVec 24) (size : BitVec 2) (w : Word),
    ∃ t, exec (.busWrite a size w) s = .next t ∧
      t.result = s.result ∧ t.resultSeq = s.resultSeq ∧ t.rdata = s.rdata ∧ t.nMax = s.nMax ∧ t.epoch = s.epoch ∧
      t.order = s.order ∧
      (¬(definedAccess a size = true ∧ select s.nMax a = .ctrl ∧ s.status.busy = false) → t.ctrl = s.ctrl) ∧
      (¬(definedAccess a size = true ∧ select s.nMax a = .blockLen ∧ s.status.busy = false) → t.blockLen = s.blockLen) ∧
      (¬(definedAccess a size = true ∧ select s.nMax a = .sampleRate ∧ s.status.busy = false) → t.sampleRate = s.sampleRate) ∧
      (¬(definedAccess a size = true ∧ select s.nMax a = .cmd) → t.errInfo = s.errInfo ∧ t.status.busy = s.status.busy ∧
        t.status.done = s.status.done ∧ t.status.err = s.status.err ∧ t.status.errCause = s.status.errCause ∧
        t.status.overrun = s.status.overrun ∧ t.status.badCmd = s.status.badCmd) ∧
      (¬(definedAccess a size = true ∧ select s.nMax a = .cmd) →
        ¬(definedAccess a size = true ∧ s.status.busy = true ∧
          (select s.nMax a ∈ [Reg.ctrl, .blockLen, .sampleRate] ∨ ∃ i, select s.nMax a = .sample i)) →
        t.status.wrBusy = s.status.wrBusy) ∧
      (definedAccess a size = true → (select s.nMax a ∈ [Reg.ctrl, .blockLen, .sampleRate] ∨ ∃ i, select s.nMax a = .sample i) →
        t.status.badAccess = s.status.badAccess) ∧
      (∀ i, definedAccess a size = true → select s.nMax a = .sample i → s.status.busy = false →
        ∀ x, x < sampleAddr i ∨ sampleAddr i + 8 ≤ x → t.readByte x = s.readByte x) ∧
      (¬(∃ i, definedAccess a size = true ∧ select s.nMax a = .sample i ∧ s.status.busy = false) →
        ∀ x, t.readByte x = s.readByte x)

/-- Protected registers while BUSY (44_block_process.md R86): a write to CTRL, BLOCK_LEN, SAMPLE_RATE or any SAMPLE[i] is dropped and
sets WR_BUSY; CMD is not protected; a read returns the current value and sets no flag. -/
def Obligations.ProtectedWritesAreDroppedWhileBusy : Prop :=
  ∀ (s : State) (w : Word), s.status.busy = true → Config.NMaxLegal s.nMax →
    (∀ a : BitVec 24, (a = 0x000010#24 ∨ a = 0x000028#24 ∨ a = 0x000030#24 ∨
        ∃ i < s.nMax, a = BitVec.ofNat 24 (0x10000 + 8 * i)) →
      exec (.busWrite a 3#2 w) s = .next { s with status := { s.status with wrBusy := true } }) ∧
    exec (.busWrite 0x000020#24 3#2 0x0#64) s = .next s ∧
    exec (.busWrite 0x000020#24 3#2 0x1#64) s = .next { s with status := { s.status with overrun := true } } ∧
    exec (.busWrite 0x000020#24 3#2 0x2#64) s = exec .clearStatus s ∧
    (∀ a : BitVec 24, definedAccess a 3#2 = true → select s.nMax a ≠ .unmapped →
      exec (.busRead a 3#2) s = .next { s with rdata := s.readReg (select s.nMax a) })

/-- One access sets at most one sticky flag (60_exceptions.md R107). -/
def Obligations.OneAccessRaisesAtMostOneStickyFlag : Prop :=
  ∀ (i : Instr) (s t : State), exec i s = .next t →
    ([t.status.overrun && !s.status.overrun, t.status.wrBusy && !s.status.wrBusy, t.status.badCmd && !s.status.badCmd,
      t.status.badAccess && !s.status.badAccess].countP id) ≤ 1

/-! ### The commands -/

/-- NOP (45_host_access.md R98): no state changes, IDLE or BUSY, as an instruction and as the CMD write that carries it. -/
def Obligations.NopChangesNothing : Prop :=
  ∀ s : State, exec .nop s = .next s ∧ exec (.busWrite 0x000020#24 3#2 0x0#64) s = .next s

/-- START (44_block_process.md R84): accepted while IDLE, whatever the inputs hold; otherwise only OVERRUN. The sticky flags,
RESULT and RESULT_SEQ stay. -/
def Obligations.StartIsAcceptedWhileIdle : Prop :=
  ∀ s : State,
    (s.status.busy = false → exec .start s = .next { s with
      status := { s.status with busy := true, done := false, err := false, errCause := 0#4 }
      errInfo := 0#64 }) ∧
    (s.status.busy = true → exec .start s = .next { s with status := { s.status with overrun := true } }) ∧
    exec (.busWrite 0x000020#24 3#2 0x0000000000000001#64) s = exec .start s

/-- A START while BUSY is not accepted (44_block_process.md R85): the block in progress continues unchanged. The completion that
follows is the one that would have happened, but for OVERRUN. -/
def Obligations.StartWhileBusyLeavesTheBlock : Prop :=
  ∀ s : State, s.status.busy = true →
    ∃ t, exec .start s = .next t ∧ t = { s with status := { s.status with overrun := true } } ∧
      t.complete = { s.complete with status := { s.complete.status with overrun := true } }

/-- CLEAR_STATUS (45_host_access.md R99): every STATUS field but BUSY, and ERR_INFO; afterwards `irq` is 0. -/
def Obligations.ClearStatusClearsAllButBusy : Prop :=
  ∀ s : State,
    ∃ t, exec .clearStatus s = .next t ∧
      t = { s with
        status := { busy := s.status.busy, done := false, err := false, errCause := 0#4
                    overrun := false, wrBusy := false, badCmd := false, badAccess := false }
        errInfo := 0#64 } ∧
      t.irq = false ∧
      exec (.busWrite 0x000020#24 3#2 0x0000000000000002#64) s = .next t

/-- Reserved commands (45_host_access.md R100): a word with bits [63:8] ≠ 0 or OP in 0x03..0xFF sets BAD_CMD and is not executed, not
even in part. -/
def Obligations.ReservedCommandOnlySetsBadCmd : Prop :=
  ∀ (s : State) (w : Word), w.extractLsb' 8 56 ≠ 0#56 ∨ 0x03 ≤ (w.extractLsb' 0 8).toNat →
    exec (.busWrite 0x000020#24 3#2 w) s = .next { s with status := { s.status with badCmd := true } }

/-! ### The end of a block -/

/-- `validate` (44_block_process.md R88): the first condition that holds, in this order, decides; a rate is valid exactly if it is
finite and the number it denotes is greater than 0; a sample at an index ≥ N is never read. -/
def Obligations.ValidateAnswersTheFirstCause : Prop :=
  ∀ s : State,
    (s.blockLen.toNat = 0 → s.validate = (1#4, 0#64)) ∧
    (s.blockLen.toNat = 1 → s.validate = (2#4, 0#64)) ∧
    (2 ≤ s.blockLen.toNat → s.nMax < s.blockLen.toNat → s.validate = (3#4, 0#64)) ∧
    (2 ≤ s.blockLen.toNat → s.blockLen.toNat ≤ s.nMax →
      ¬(isFinite s.sampleRate = true ∧ 0 < f64Value s.sampleRate) → s.validate = (4#4, 0#64)) ∧
    (2 ≤ s.blockLen.toNat → s.blockLen.toNat ≤ s.nMax → isFinite s.sampleRate = true → 0 < f64Value s.sampleRate →
      (∀ i < s.blockLen.toNat, isFinite (s.sampleAt i) = false → (∀ j < i, isFinite (s.sampleAt j) = true) →
        s.validate = (5#4, BitVec.ofNat 64 i)) ∧
      ((∀ i < s.blockLen.toNat, isFinite (s.sampleAt i) = true) → s.validate = (0#4, 0#64))) ∧
    (∀ i w, s.blockLen.toNat ≤ i → (s.writeSample i w).validate = s.validate)

/-- `raise InvalidBlock(c, info)` (60_exceptions.md R105), in the completion step of an invalid block, for every magnitude function: the
cause is 1 to 6, and RESULT, RESULT_SEQ and DONE are not written. The core's turn while BUSY is that step (44_block_process.md R87). -/
def Obligations.InvalidBlockReportsItsCause : Prop :=
  (∀ (f : Config.MagFn) (s : State) (c : BitVec 4) (info : Word),
    ((s.validate = (c, info) ∧ c ≠ 0#4) ∨
      (s.validate.1 = 0#4 ∧ c = 6#4 ∧ ∃ k : Fin 88, info = BitVec.ofNat 64 k.val ∧
        isFinite (s.magnitudeWith f k) = false ∧ ∀ j < k, isFinite (s.magnitudeWith f j) = true)) →
    1 ≤ c.toNat ∧ c.toNat ≤ 6 ∧
    s.completeWith f = { s with
      status := { s.status with err := true, errCause := c, busy := false }
      errInfo := info }) ∧
  (∀ (s : State) (rest : List Event), s.status.busy = true → s.order = .core :: rest →
    step s = .next (State.completeWith Config.rawMagnitude { s with order := rest }))

/-- A magnitude that is an infinity or a NaN fails the block with cause 6, and ERR_INFO is the lowest such note (44_block_process.md
R89). A block of the nominal envelope (42_magnitude.md R73) never fails this way: R89 itself derives that from R74, and it is stated
here of every magnitude function that has R74 as a hypothesis (log 7, DEDUCED). -/
def Obligations.NonFiniteMagnitudeFailsTheBlock : Prop :=
  (∀ (f : Config.MagFn) (s : State) (k : Fin 88), s.validate.1 = 0#4 → isFinite (s.magnitudeWith f k) = false →
    (∀ j < k, isFinite (s.magnitudeWith f j) = true) →
    s.completeWith f = { s with
      status := { s.status with err := true, errCause := 6#4, busy := false }
      errInfo := BitVec.ofNat 64 k.val }) ∧
  (∀ (f : Config.MagFn) (s : State) (tolAbs cyclesMax : ℝ), Accurate s.nMax tolAbs cyclesMax f →
    s.ctrl.winSel = 0#2 ∨ s.ctrl.winSel = 1#2 → NominalEnvelope s.nMax cyclesMax s.block s.blockLen.toNat s.sampleRate →
    (s.completeWith f).status = { s.status with busy := false, done := true })

/-- `commit(H)` (44_block_process.md R90): all 88 elements, RESULT_SEQ + 1 modulo 2^64, DONE and BUSY in one step, nothing else; every
element written is finite with sign bit 0. -/
def Obligations.CommitReplacesTheWholeVector : Prop :=
  ∀ (s : State) (rest : List Event), s.status.busy = true → s.order = .core :: rest → s.validate.1 = 0#4 →
    (∀ k, isFinite (s.magnitudeWith Config.rawMagnitude k) = true) →
    ∃ h : Vector Word 88, (∀ k : Fin 88, h[k] = s.magnitudeWith Config.rawMagnitude k ∧ isFinite h[k] = true ∧
        f64Sign h[k] = false) ∧
      step s = .next { s with
        result := h
        resultSeq := BitVec.ofNat 64 ((s.resultSeq.toNat + 1) % 2 ^ 64)
        status := { s.status with done := true, busy := false }
        order := rest }

/-- R70 of 42_magnitude.md: H_k depends on the bits of s[0..N), N, the bits of R, WIN_EN and k, and on WIN_SEL only if WIN_EN = 1:
on no earlier block, no earlier result and no sample at an index ≥ N. -/
def Obligations.MagnitudeIsAFunctionOfTheBlock : Prop :=
  ∀ (f : Config.MagFn) (s t : State), s.blockLen = t.blockLen → s.sampleRate = t.sampleRate → s.ctrl.winEn = t.ctrl.winEn →
    (s.ctrl.winEn = true → s.ctrl.winSel = t.ctrl.winSel) → (∀ i < s.blockLen.toNat, s.sampleAt i = t.sampleAt i) →
    ∀ k, s.magnitudeWith f k = t.magnitudeWith f k

/-- R71 and R72 of 42_magnitude.md: an all-zero block has every magnitude exactly +0.0; a magnitude is non-finite, or finite and in
[+0.0, +∞) with sign bit 0. -/
def Obligations.MagnitudesAreZeroOnZerosAndNeverNegative : Prop :=
  ∀ (f : Config.MagFn) (s : State) (k : Fin 88),
    ((∀ i < s.blockLen.toNat, s.sampleAt i = 0x0000000000000000#64 ∨ s.sampleAt i = 0x8000000000000000#64) →
      s.magnitudeWith f k = 0x0000000000000000#64) ∧
    (isFinite (s.magnitudeWith f k) = true →
      (s.magnitudeWith f k).getLsbD 63 = false ∧ s.magnitudeWith f k ≠ 0x8000000000000000#64 ∧
      0 ≤ f64Value (s.magnitudeWith f k))

/-- The accuracy of a committed vector (42_magnitude.md R74), for every magnitude function that has the named property: a block of the
nominal envelope commits, and every RESULT[k] is within TOL_REL · M_k + TOL_ABS of the ideal M_k of R68. -/
def Obligations.CommittedVectorIsAccurate : Prop :=
  ∀ (f : Config.MagFn) (s : State) (tolAbs cyclesMax : ℝ), Accurate s.nMax tolAbs cyclesMax f →
    s.ctrl.winSel = 0#2 ∨ s.ctrl.winSel = 1#2 → NominalEnvelope s.nMax cyclesMax s.block s.blockLen.toNat s.sampleRate →
    (s.completeWith f).resultSeq = s.resultSeq + 1#64 ∧
    ∀ k : Fin 88, isFinite (s.completeWith f).result[k] = true ∧
      |toReal (s.completeWith f).result[k]
          - idealNote s.block s.blockLen.toNat s.sampleRate s.ctrl.winEn s.ctrl.winSel k|
        ≤ 1 / 10 ^ 6 * idealNote s.block s.blockLen.toNat s.sampleRate s.ctrl.winEn s.ctrl.winSel k + tolAbs

/-- Two blocks with the same inputs end the same way with bit-identical vectors, whatever came before (44_block_process.md R91,
R92). -/
def Obligations.SameBlockGivesTheSameVector : Prop :=
  ∀ s t : State, s.nMax = t.nMax → s.blockLen = t.blockLen → s.sampleRate = t.sampleRate → s.ctrl.winEn = t.ctrl.winEn →
    (s.ctrl.winEn = true → s.ctrl.winSel = t.ctrl.winSel) → (∀ i < s.blockLen.toNat, s.sampleAt i = t.sampleAt i) →
    (s.complete.status.done = true → s.status.done = false → t.status.done = false →
      t.complete.status.done = true ∧ s.complete.result = t.complete.result) ∧
    (s.complete.status.err = true → s.status.err = false → t.status.err = false →
      t.complete.status.err = true ∧ s.complete.status.errCause = t.complete.status.errCause ∧
      s.complete.errInfo = t.complete.errInfo)

/-- A second START with no write in between commits the same vector again, and RESULT_SEQ rises by one (44_block_process.md R92):
START, COMPLETE, START, COMPLETE from an IDLE state. -/
def Obligations.SecondStartCommitsTheSameVector : Prop :=
  ∀ (s : State) (rest : List Event), s.status.busy = false →
    s.order = .access ⟨0x00002007#32, 0x1#64⟩ :: .core :: .access ⟨0x00002007#32, 0x1#64⟩ :: .core :: rest →
    s.validate.1 = 0#4 → (∀ k, isFinite (s.magnitudeWith Config.rawMagnitude k) = true) →
    ∃ t u : State, Host.Core.run Sys2Proof.core 2 s = .next t ∧ Host.Core.run Sys2Proof.core 4 s = .next u ∧
      t.status.done = true ∧ u.status.done = true ∧ u.result = t.result ∧
      t.resultSeq = s.resultSeq + 1#64 ∧ u.resultSeq = t.resultSeq + 1#64 ∧ (∀ i, u.sampleAt i = s.sampleAt i)

/-- An all-zero block of any length N ≥ 2 and any valid rate, started while IDLE, commits a vector of all zeros (42_magnitude.md R71,
44_block_process.md R87; 95_test_vectors.md T4), whatever vector an earlier block left (R91). -/
def Obligations.AllZeroBlockCommitsZeros : Prop :=
  ∀ (s : State) (rest : List Event), s.status.busy = false → s.order = .access ⟨0x00002007#32, 0x1#64⟩ :: .core :: rest →
    2 ≤ s.blockLen.toNat → s.blockLen.toNat ≤ s.nMax → isFinite s.sampleRate = true → 0 < f64Value s.sampleRate →
    (∀ i < s.blockLen.toNat, s.sampleAt i = 0x0000000000000000#64 ∨ s.sampleAt i = 0x8000000000000000#64) →
    ∃ t : State, Host.Core.run Sys2Proof.core 2 s = .next t ∧ t.result = Vector.replicate 88 0#64 ∧
      t.resultSeq = s.resultSeq + 1#64 ∧ t.errInfo = 0#64 ∧ t.order = rest ∧
      t.status = { s.status with busy := false, done := true, err := false, errCause := 0#4 }

/-- What completion leaves alone (41_window.md R61, 44_block_process.md R95): the inputs, so SAMPLE in every byte, the sticky flags,
RDATA and the parameter, whatever the outcome. -/
def Obligations.CompletionLeavesInputsAndStickyFlags : Prop :=
  ∀ (f : Config.MagFn) (s : State),
    (s.completeWith f).ctrl = s.ctrl ∧ (s.completeWith f).blockLen = s.blockLen ∧
    (s.completeWith f).sampleRate = s.sampleRate ∧ (∀ a, (s.completeWith f).readByte a = s.readByte a) ∧
    (s.completeWith f).nMax = s.nMax ∧ (s.completeWith f).epoch = s.epoch ∧ (s.completeWith f).rdata = s.rdata ∧
    (s.completeWith f).order = s.order ∧ (s.completeWith f).status.busy = false ∧
    (s.completeWith f).status.overrun = s.status.overrun ∧ (s.completeWith f).status.wrBusy = s.status.wrBusy ∧
    (s.completeWith f).status.badCmd = s.status.badCmd ∧ (s.completeWith f).status.badAccess = s.status.badAccess

/-! ### Reset -/

/-- The values R31 gives for reset. (N_MAX, RDATA, the draw number and the order are the model's own and stand in no clause.) -/
def Obligations.ResetHasTheStatedValues : Prop :=
  State.reset.ctrl.pack = 0x0000000000000001#64 ∧ State.reset.status.pack = 0x0000000000000000#64 ∧
  State.reset.blockLen = 0#32 ∧ State.reset.sampleRate = 0#64 ∧ State.reset.resultSeq = 0#64 ∧ State.reset.errInfo = 0#64 ∧
  (∀ k : Fin 88, State.reset.result[k] = 0#64) ∧ State.reset.irq = false

/-- The reset event (70_reset_and_hazards.md R119), injected at any point, while BUSY too: every register takes its value of R31, a
block in progress leaves no trace, every SAMPLE element is its draw of a new number, and N_MAX stays. -/
def Obligations.ResetEventRestoresEveryRegister : Prop :=
  ∀ (s : State) (rest : List Event), s.order = .reset :: rest →
    ∃ t, step s = .next t ∧
      t.ctrl = { winEn := true, winSel := 0#2, irqEn := false } ∧
      t.status = { busy := false, done := false, err := false, errCause := 0#4
                   overrun := false, wrBusy := false, badCmd := false, badAccess := false } ∧
      t.blockLen = 0#32 ∧ t.sampleRate = 0#64 ∧ t.resultSeq = 0#64 ∧ t.errInfo = 0#64 ∧
      t.result = Vector.replicate 88 0#64 ∧ t.irq = false ∧ t.nMax = s.nMax ∧ t.order = rest ∧ t.rdata = s.rdata ∧
      t.epoch = s.epoch + 1 ∧ ∀ i, t.sampleAt i = Config.sampleDraw t.epoch i

/-- The reset state meets the invariant. -/
def Obligations.ResetMeetsTheInvariant : Prop := State.reset.Inv

/-! ### Promises of the whole machine -/

/-- The invariant of every reachable state (10_state.md R19, R20, R27; 60_exceptions.md R104; the canonical memory, log 13) is kept by
every step, from every state that meets it. -/
def Obligations.EveryStepKeepsTheInvariant : Prop :=
  ∀ s t : State, s.Inv → step s = .next t → t.Inv

/-- Only an accepted START, the completion and reset change BUSY (10_state.md R15). -/
def Obligations.OnlyStartCompletionAndResetChangeBusy : Prop :=
  ∀ s t : State, step s = .next t → s.status.busy ≠ t.status.busy →
    (s.status.busy = false ∧ ∃ r rest, s.order = .access r :: rest ∧ decode r = .ok .start) ∨
    (s.status.busy = true ∧ s.coreNext = true) ∨
    (∃ rest, s.order = .reset :: rest)

/-- RESULT is replaced as a whole or not at all (20_memory.md R40; 10_state.md R24, R27): a step leaves RESULT and RESULT_SEQ, or it
commits the block's 88 magnitudes with RESULT_SEQ, BUSY and DONE, or it is a reset. -/
def Obligations.ResultChangesOnlyByAWholeCommit : Prop :=
  ∀ s t : State, step s = .next t →
    (t.result = s.result ∧ t.resultSeq = s.resultSeq) ∨
    (s.commitsNext = true ∧ (∀ k : Fin 88, t.result[k] = s.magnitudeWith Config.rawMagnitude k) ∧
      t.resultSeq = s.resultSeq + 1#64 ∧ t.status.busy = false ∧ t.status.done = true) ∨
    (∃ rest, s.order = .reset :: rest)

/-- The RESULT_SEQ protocol (20_memory.md R41; 10_state.md R24): along any run with no reset RESULT_SEQ counts the commits modulo 2^64;
so with fewer than 2^64 commits, if it reads the same at the end as at the start, no commit took place and every state in between
holds the same vector. -/
def Obligations.EqualSequenceCountsMeanOneVector : Prop :=
  ∀ (s t : State) (n : Nat), s.noReset → Host.Core.run Sys2Proof.core n s = .next t →
    t.resultSeq = s.resultSeq + BitVec.ofNat 64 (commitsIn n s) ∧
    (commitsIn n s < 2 ^ 64 → t.resultSeq = s.resultSeq →
      commitsIn n s = 0 ∧ ∀ m ≤ n, ∀ u, Host.Core.run Sys2Proof.core m s = .next u → u.result = s.result)

/-- The input block does not change while it is processed (20_memory.md R42): along any run with no reset whose states are all BUSY up to
its last step, CTRL, BLOCK_LEN, SAMPLE_RATE and every SAMPLE[i] keep the values they had. -/
def Obligations.InputsAreFrozenWhileBusy : Prop :=
  ∀ (s t : State) (n : Nat), s.noReset →
    (∀ m < n, ∃ u : State, Host.Core.run Sys2Proof.core m s = .next u ∧ u.status.busy = true) →
    Host.Core.run Sys2Proof.core n s = .next t →
    t.ctrl = s.ctrl ∧ t.blockLen = s.blockLen ∧ t.sampleRate = s.sampleRate ∧ ∀ i, t.sampleAt i = s.sampleAt i

/-- A sticky flag is cleared only by CLEAR_STATUS or reset (60_exceptions.md R106). -/
def Obligations.StickyFlagsAreClearedOnlyByClearStatusOrReset : Prop :=
  ∀ s t : State, step s = .next t →
    ((s.status.overrun = true ∧ t.status.overrun = false) ∨ (s.status.wrBusy = true ∧ t.status.wrBusy = false) ∨
      (s.status.badCmd = true ∧ t.status.badCmd = false) ∨ (s.status.badAccess = true ∧ t.status.badAccess = false)) →
    (∃ r rest, s.order = .access r :: rest ∧ decode r = .ok .clearStatus) ∨ (∃ rest, s.order = .reset :: rest)

/-- A sticky flag is set by its event alone (60_exceptions.md R106): START while BUSY; a defined write to a protected register while
BUSY; a reserved CMD word; an undefined or unmapped access, or a write to a read-only register. -/
def Obligations.StickyFlagsAreSetOnlyByTheirEvent : Prop :=
  ∀ s t : State, step s = .next t →
    (s.status.overrun = false → t.status.overrun = true →
      s.status.busy = true ∧ ∃ r rest, s.order = .access r :: rest ∧ decode r = .ok .start) ∧
    (s.status.wrBusy = false → t.status.wrBusy = true →
      s.status.busy = true ∧ ∃ r rest a w, s.order = .access r :: rest ∧ decode r = .ok (.busWrite a 3#2 w) ∧ a.toNat % 8 = 0 ∧
        (a = 0x000010#24 ∨ a = 0x000028#24 ∨ a = 0x000030#24 ∨ (0x10000 ≤ a.toNat ∧ a.toNat < 0x10000 + 8 * s.nMax))) ∧
    (s.status.badCmd = false → t.status.badCmd = true →
      ∃ r rest w, s.order = .access r :: rest ∧ decode r = .ok (.busWrite 0x000020#24 3#2 w) ∧ decodeCmd w = none) ∧
    (s.status.badAccess = false → t.status.badAccess = true →
      ∃ r rest i, s.order = .access r :: rest ∧ decode r = .ok i ∧
        ((∃ a size, i = .busRead a size ∧ (size ≠ 3#2 ∨ a.toNat % 8 ≠ 0 ∨ select s.nMax a = .unmapped)) ∨
          (∃ a size w, i = .busWrite a size w ∧ (size ≠ 3#2 ∨ a.toNat % 8 ≠ 0 ∨
            select s.nMax a ∉ [Reg.cmd, .ctrl, .blockLen, .sampleRate] ∧ ∀ j, select s.nMax a ≠ .sample j))))

/-- The interrupt output (60_exceptions.md R108): an accepted START and CLEAR_STATUS lower it, the end of a block raises it exactly if
IRQ_EN is set, a write to CTRL while IDLE masks or unmasks it at once and one while BUSY does not, reset lowers it, and no sticky flag
drives it. -/
def Obligations.IrqFollowsEnableAndOutcome : Prop :=
  ∀ s : State,
    (s.irq = true ↔ s.ctrl.irqEn = true ∧ (s.status.done = true ∨ s.status.err = true)) ∧
    (∀ t, s.status.busy = false → exec .start s = .next t → t.irq = false) ∧
    (∀ t, exec .clearStatus s = .next t → t.irq = false) ∧
    s.complete.irq = s.ctrl.irqEn ∧
    (∀ t w, s.status.busy = false → exec (.busWrite 0x000010#24 3#2 w) s = .next t →
      t.irq = (w.getLsbD 3 && (s.status.done || s.status.err))) ∧
    (∀ t w, s.status.busy = true → exec (.busWrite 0x000010#24 3#2 w) s = .next t → t.irq = s.irq) ∧
    s.resetEvent.irq = false ∧
    (∀ a b c d, State.irq { s with status := { s.status with overrun := a, wrBusy := b, badCmd := c, badAccess := d } } = s.irq)

/-- Every block ends (44_block_process.md R94): a BUSY core with any finite list of accesses and turns waiting, none of them a reset or
an ill-formed request, is IDLE after at most one step more than the list has. (Weak fairness is the spec's; that an empty list
gives the core its turn is the model's form of it, log 1.) -/
def Obligations.EveryBlockEnds : Prop :=
  ∀ s : State, s.status.busy = true → s.noReset → s.requestsWellFormed →
    ∃ n ≤ s.order.length + 1, ∃ t : State, Host.Core.run Sys2Proof.core n s = .next t ∧ t.status.busy = false

/-! ### The note map and the ideal values -/

/-- The ROM (43_note_map.md R81), with the properties R82 derives from it: strictly increasing, its anchors, its octaves, its top, and
its accuracy against F(k) = 27.5 · 2^(k/12) (R79). The number a pattern denotes is read through log 8 (PRESUMED: the hidden bit and
the bias of IEEE-754). -/
def Obligations.RomMatchesTheIdealFrequencies : Prop :=
  (∀ j k : Fin 88, j < k → f64Value (freq j) < f64Value (freq k)) ∧
  f64Value (freq 0) = 55 / 2 ∧ f64Value (freq 48) = 440 ∧
  (∀ j k : Fin 88, k.val = j.val + 12 → f64Value (freq k) = 2 * f64Value (freq j) ∧ f64Frac (freq k) = f64Frac (freq j)) ∧
  freq 87 = f64Literal false 4186009044809578 (10 ^ 12) ∧
  (∀ k : Fin 88, |toReal (freq k) - idealFreq k| ≤ 1 / 2 ^ 53 * idealFreq k)

/-- The window (41_window.md R57, R59), with the properties R64 derives: symmetry, ends, centre, N = 2, range, zero in zero out, and
WIN_EN = 0. The clauses about Hann rest on its coefficients (R58; log 19, PRESUMED), and what a sample denotes on log 8 (PRESUMED). -/
def Obligations.WindowHasTheStatedShape : Prop :=
  (∀ (sel : BitVec 2) (n i : ℕ), 2 ≤ n → i < n → windowCoeff sel n i = windowCoeff sel n (n - 1 - i)) ∧
  (∀ (sel : BitVec 2) (n : ℕ), 2 ≤ n → windowCoeff sel n 0 = windowAlpha sel - windowBeta sel ∧
    windowCoeff sel n (n - 1) = windowAlpha sel - windowBeta sel) ∧
  windowAlpha 0#2 - windowBeta 0#2 = 8 / 100 ∧ windowAlpha 1#2 - windowBeta 1#2 = 0 ∧
  (∀ (sel : BitVec 2) (m : ℕ), 1 ≤ m → windowCoeff sel (2 * m + 1) m = 1) ∧
  (∀ (sel : BitVec 2) (i : ℕ), i < 2 → windowCoeff sel 2 i = windowAlpha sel - windowBeta sel) ∧
  (∀ n i : ℕ, 2 ≤ n → i < n → 8 / 100 ≤ windowCoeff 0#2 n i ∧ windowCoeff 0#2 n i ≤ 1) ∧
  (∀ n i : ℕ, 2 ≤ n → i < n → 0 ≤ windowCoeff 1#2 n i ∧ windowCoeff 1#2 n i ≤ 1) ∧
  (∀ (en : Bool) (sel : BitVec 2) (xs : List Word) (n i : ℕ),
    (xs.getD i 0#64 = 0x0000000000000000#64 ∨ xs.getD i 0#64 = 0x8000000000000000#64) → workingBlock en sel xs n i = 0) ∧
  (∀ (sel : BitVec 2) (xs : List Word) (n i : ℕ), workingBlock false sel xs n i = toReal (xs.getD i 0#64))

/-- The ideal magnitude (42_magnitude.md R76): non-negative, bounded, zero block, phase-free, integer ratio, two samples, scaling,
large R. -/
def Obligations.IdealMagnitudeHasTheStatedProperties : Prop :=
  (∀ (x : ℕ → ℝ) (n : ℕ) (r f : ℝ), 0 ≤ idealMagnitude x n r f) ∧
  (∀ (x : ℕ → ℝ) (n : ℕ) (r f : ℝ), 1 ≤ n → idealMagnitude x n r f ≤ (∑ i ∈ Finset.range n, |x i|) / n) ∧
  (∀ (x : ℕ → ℝ) (n : ℕ) (r f : ℝ), 1 ≤ n → (∀ i < n, |x i| ≤ 1) → idealMagnitude x n r f ≤ 1) ∧
  (∀ (x : ℕ → ℝ) (n : ℕ) (r f : ℝ), (∀ i < n, x i = 0) → idealMagnitude x n r f = 0) ∧
  (∀ (x : ℕ → ℝ) (n : ℕ) (r f : ℝ), idealMagnitude x n r (-f) = idealMagnitude x n r f ∧
    idealMagnitude x n r f = Real.sqrt (sumRe x n r f ^ 2 + (-sumIm x n r f) ^ 2) / n) ∧
  (∀ (x : ℕ → ℝ) (n : ℕ) (r f : ℝ) (z : ℤ), f / r = z → idealMagnitude x n r f = |∑ i ∈ Finset.range n, x i| / n) ∧
  (∀ (x : ℕ → ℝ) (r f : ℝ), idealMagnitude x 2 r f =
    Real.sqrt (x 0 ^ 2 + x 1 ^ 2 + 2 * x 0 * x 1 * Real.cos (2 * Real.pi * f / r)) / 2) ∧
  (∀ (x : ℕ → ℝ) (r f : ℝ), x 0 = 1 → x 1 = 1 → idealMagnitude x 2 r f = |Real.cos (Real.pi * f / r)|) ∧
  (∀ (x : ℕ → ℝ) (n : ℕ) (r f c : ℝ), idealMagnitude (fun i => c * x i) n r f = |c| * idealMagnitude x n r f) ∧
  (∀ (x : ℕ → ℝ) (n : ℕ) (f : ℝ), Filter.Tendsto (fun r => idealMagnitude x n r f) Filter.atTop
    (nhds (|∑ i ∈ Finset.range n, x i| / n)))

/-- Worked examples of the ideal values (41_window.md R59; 42_magnitude.md R68; 95_test_vectors.md V-W1, V-W2, V-M2a, V-M2c). The
Hann row rests on log 19 (PRESUMED), and what the patterns of the block denote on log 8 (PRESUMED). -/
def Obligations.WorkedExamplesOfTheIdealValues : Prop :=
  (List.map (windowCoeff 0#2 5) [0, 1, 2, 3, 4] = [8 / 100, 54 / 100, 1, 54 / 100, 8 / 100]) ∧
  (List.map (windowCoeff 1#2 5) [0, 1, 2, 3, 4] = [0, 1 / 2, 1, 1 / 2, 0]) ∧
  idealNote [0x3FF0000000000000#64, 0#64, 0xBFF0000000000000#64, 0#64] 4 0x405B800000000000#64 false 0#2 0 = 1 / 2 ∧
  idealNote [0x3FF0000000000000#64, 0#64, 0xBFF0000000000000#64, 0#64] 4 0x405B800000000000#64 false 0#2 12 = 0

/-! ### The assembler notation -/

/-- The lines of a host program (30_encoding.md R55, R56) put on the port what they say. `rd` and `wr` are the 8-byte access of the
location; `start`, `nop`, `clrst` their commands; `wrf` the write of the literal's pattern. Every location selects its register (R50),
a raw offset is itself; of SAMPLE[i] this is said for i < N_MAX, as past it R55 names no element (log 21). One pass of `wait_idle` is
`rd STATUS`, and it goes round again while bit 0 of the value read, which is BUSY, is 1; one pass of `rdvec` reads RESULT_SEQ, the 88
elements in order and RESULT_SEQ again, and it goes round again while the two counts differ. -/
def Obligations.AssemblerLinesAreTheirAccesses : Prop :=
  (∀ l : Loc, decode (Line.rd l).request = .ok (.busRead l.addr 3#2)) ∧
  (∀ (l : Loc) (v : Word), ∃ i, decode (Line.wr l v).request = .ok i ∧ ∀ s, exec i s = exec (.busWrite l.addr 3#2 v) s) ∧
  (∀ (l : Loc) (neg : Bool) (num den : Nat), ∃ i, decode (lineWrf l neg num den).request = .ok i ∧
    ∀ s, exec i s = exec (.busWrite l.addr 3#2 (f64Literal neg num den)) s) ∧
  (decode lineStart.request = .ok .start ∧ decode lineNop.request = .ok .nop ∧ decode lineClrst.request = .ok .clearStatus) ∧
  (∀ nMax : Nat, select nMax Loc.id.addr = .id ∧ select nMax Loc.caps.addr = .caps ∧ select nMax Loc.ctrl.addr = .ctrl ∧
    select nMax Loc.status.addr = .status ∧ select nMax Loc.cmd.addr = .cmd ∧ select nMax Loc.blockLen.addr = .blockLen ∧
    select nMax Loc.sampleRate.addr = .sampleRate ∧ select nMax Loc.resultSeq.addr = .resultSeq ∧
    select nMax Loc.errInfo.addr = .errInfo) ∧
  (∀ (nMax : Nat) (k : Fin 88), select nMax (Loc.result k).addr = .result k ∧ select nMax (Loc.freq k).addr = .freq k) ∧
  (∀ nMax i : Nat, Config.NMaxLegal nMax → i < nMax → select nMax (Loc.sample i).addr = .sample i) ∧
  (∀ a : BitVec 24, (Loc.raw a).addr = a) ∧
  (waitIdle.pass = [.rd .status] ∧ (∀ v : Word, waitIdle.again [v] = v.getLsbD 0) ∧
    ∀ s : State, waitIdle.again [s.readReg .status] = s.status.busy) ∧
  (rdvec.pass.length = 90 ∧ rdvec.pass[0]? = some (.rd .resultSeq) ∧ rdvec.pass[89]? = some (.rd .resultSeq) ∧
    (∀ k : Fin 88, rdvec.pass[k.val + 1]? = some (.rd (.result k))) ∧
    ∀ vs : List Word, vs.length = 90 → (rdvec.again vs = true ↔ vs[0]? ≠ vs[89]?))
end

