-- ==== Sys2Proof/Laws/Decode.lean ====
section
/-! SUPPORT. The fields of a descriptor, the command words, and what the decoder makes of each kind of request. -/

namespace Sys2Proof

section
variable (a : BitVec 24) (sz : BitVec 2) (we : BitVec 1)

/-- A descriptor's bits, one by one. -/
theorem descriptorOf_getLsbD (i : Nat) (hi : i < 32) : (descriptorOf a sz we).getLsbD i =
    if i < 1 then we.getLsbD i else if i < 3 then sz.getLsbD (i - 1) else if i < 8 then false else a.getLsbD (i - 8) := by
  simp only [descriptorOf, BitVec.getLsbD_append]
  interval_cases i <;> simp

@[simp] theorem descWE_descriptorOf : descWE (descriptorOf a sz we) = we := by
  apply BitVec.eq_of_getLsbD_eq
  intro i hi
  rw [descWE, BitVec.getLsbD_extractLsb', descriptorOf_getLsbD _ _ _ _ (by omega)]
  interval_cases i; simp

@[simp] theorem descSize_descriptorOf : descSize (descriptorOf a sz we) = sz := by
  apply BitVec.eq_of_getLsbD_eq
  intro i hi
  rw [descSize, BitVec.getLsbD_extractLsb', descriptorOf_getLsbD _ _ _ _ (by omega)]
  interval_cases i <;> simp

@[simp] theorem descReserved_descriptorOf : descReserved (descriptorOf a sz we) = 0#5 := by
  apply BitVec.eq_of_getLsbD_eq
  intro i hi
  rw [descReserved, BitVec.getLsbD_extractLsb', descriptorOf_getLsbD _ _ _ _ (by omega)]
  interval_cases i <;> simp

@[simp] theorem descAddr_descriptorOf : descAddr (descriptorOf a sz we) = a := by
  apply BitVec.eq_of_getLsbD_eq
  intro i hi
  rw [descAddr, BitVec.getLsbD_extractLsb', descriptorOf_getLsbD _ _ _ _ (by omega)]
  interval_cases i <;> simp

end

/-- A descriptor with a zero reserved field is made of its three other fields. -/
theorem descriptorOf_fields (d : BitVec 32) (h : descReserved d = 0#5) :
    descriptorOf (descAddr d) (descSize d) (descWE d) = d := by
  apply BitVec.eq_of_getLsbD_eq
  intro i hi
  have hr : ∀ j < 5, d.getLsbD (3 + j) = false := fun j hj => by
    have := congrArg (fun v => BitVec.getLsbD v j) h
    simpa [descReserved, BitVec.getLsbD_extractLsb', hj] using this
  rw [descriptorOf_getLsbD _ _ _ _ hi]
  simp only [descWE, descSize, descAddr, BitVec.getLsbD_extractLsb']
  split
  · rename_i h1; simp [h1]
  · split
    · rename_i h1 h2
      rw [show 1 + (i - 1) = i by omega]; simp; omega
    · split
      · rename_i h1 h2 h3
        have := hr (i - 3) (by omega)
        rw [show 3 + (i - 3) = i by omega] at this
        exact this.symm
      · rename_i h1 h2 h3
        rw [show 8 + (i - 8) = i by omega]; simp; omega

@[simp] theorem decodeCmd_word (c : Command) : decodeCmd c.word = some c := by cases c <;> decide

/-- A CMD word is its two fields. -/
theorem cmdWord_eq (w : Word) (h : cmdMbz w = 0#56) : w = (cmdOp w).setWidth 64 := by
  apply BitVec.eq_of_getLsbD_eq
  intro i hi
  rw [BitVec.getLsbD_setWidth, cmdOp, BitVec.getLsbD_extractLsb']
  by_cases h8 : i < 8
  · simp [h8, hi]
  · have := congrArg (fun v => BitVec.getLsbD v (i - 8)) h
    simp only [cmdMbz, BitVec.getLsbD_extractLsb', BitVec.getLsbD_zero] at this
    rw [show 8 + (i - 8) = i by omega] at this
    simp only [show i - 8 < 56 by omega, decide_true, Bool.true_and] at this
    simp [h8, this]

/-- The words of the three commands are the three legal ones (30_encoding.md R49). -/
theorem decodeCmd_eq_some (w : Word) (c : Command) (h : decodeCmd w = some c) : w = c.word := by
  unfold decodeCmd at h
  split at h
  · cases h
  · rename_i hm
    rw [cmdWord_eq w (not_not.1 hm)]
    split at h
    · rename_i ho; obtain rfl := Option.some.inj h; rw [ho]; rfl
    · split at h
      · rename_i ho; obtain rfl := Option.some.inj h; rw [ho]; rfl
      · split at h
        · rename_i ho; obtain rfl := Option.some.inj h; rw [ho]; rfl
        · cases h

theorem decodeCmd_isSome (w : Word) : (decodeCmd w).isSome = legalCmdWord w := by
  cases h : decodeCmd w with
  | some c =>
    rw [decodeCmd_eq_some w c h]
    cases c <;> rfl
  | none =>
    by_contra hl
    have hl : legalCmdWord w = true := by simpa using hl
    simp only [legalCmdWord, Bool.or_eq_true, beq_iff_eq] at hl
    rcases hl with (rfl | rfl) | rfl
    · exact absurd h (by decide)
    · exact absurd h (by decide)
    · exact absurd h (by decide)

end Sys2Proof
end

