-- ==== Sys2Proof/Laws/State.lean ====
section
/-! SUPPORT. One lemma per field and setter of State, and per field and update of STATUS, so that no proof unfolds a record
update; and what the composite operations do to each field. -/

namespace Sys2Proof.Machine

section
variable (s : State) (v : Ctrl)
@[simp] theorem State.setCtrl_ctrl : (s.setCtrl v).ctrl = v := rfl
@[simp] theorem State.setCtrl_status : (s.setCtrl v).status = s.status := rfl
@[simp] theorem State.setCtrl_blockLen : (s.setCtrl v).blockLen = s.blockLen := rfl
@[simp] theorem State.setCtrl_sampleRate : (s.setCtrl v).sampleRate = s.sampleRate := rfl
@[simp] theorem State.setCtrl_resultSeq : (s.setCtrl v).resultSeq = s.resultSeq := rfl
@[simp] theorem State.setCtrl_errInfo : (s.setCtrl v).errInfo = s.errInfo := rfl
@[simp] theorem State.setCtrl_result : (s.setCtrl v).result = s.result := rfl
@[simp] theorem State.setCtrl_mem : (s.setCtrl v).mem = s.mem := rfl
@[simp] theorem State.setCtrl_nMax : (s.setCtrl v).nMax = s.nMax := rfl
@[simp] theorem State.setCtrl_epoch : (s.setCtrl v).epoch = s.epoch := rfl
@[simp] theorem State.setCtrl_rdata : (s.setCtrl v).rdata = s.rdata := rfl
@[simp] theorem State.setCtrl_order : (s.setCtrl v).order = s.order := rfl
end

section
variable (s : State) (v : Status)
@[simp] theorem State.setStatus_ctrl : (s.setStatus v).ctrl = s.ctrl := rfl
@[simp] theorem State.setStatus_status : (s.setStatus v).status = v := rfl
@[simp] theorem State.setStatus_blockLen : (s.setStatus v).blockLen = s.blockLen := rfl
@[simp] theorem State.setStatus_sampleRate : (s.setStatus v).sampleRate = s.sampleRate := rfl
@[simp] theorem State.setStatus_resultSeq : (s.setStatus v).resultSeq = s.resultSeq := rfl
@[simp] theorem State.setStatus_errInfo : (s.setStatus v).errInfo = s.errInfo := rfl
@[simp] theorem State.setStatus_result : (s.setStatus v).result = s.result := rfl
@[simp] theorem State.setStatus_mem : (s.setStatus v).mem = s.mem := rfl
@[simp] theorem State.setStatus_nMax : (s.setStatus v).nMax = s.nMax := rfl
@[simp] theorem State.setStatus_epoch : (s.setStatus v).epoch = s.epoch := rfl
@[simp] theorem State.setStatus_rdata : (s.setStatus v).rdata = s.rdata := rfl
@[simp] theorem State.setStatus_order : (s.setStatus v).order = s.order := rfl
end

section
variable (s : State) (v : BitVec 32)
@[simp] theorem State.setBlockLen_ctrl : (s.setBlockLen v).ctrl = s.ctrl := rfl
@[simp] theorem State.setBlockLen_status : (s.setBlockLen v).status = s.status := rfl
@[simp] theorem State.setBlockLen_blockLen : (s.setBlockLen v).blockLen = v := rfl
@[simp] theorem State.setBlockLen_sampleRate : (s.setBlockLen v).sampleRate = s.sampleRate := rfl
@[simp] theorem State.setBlockLen_resultSeq : (s.setBlockLen v).resultSeq = s.resultSeq := rfl
@[simp] theorem State.setBlockLen_errInfo : (s.setBlockLen v).errInfo = s.errInfo := rfl
@[simp] theorem State.setBlockLen_result : (s.setBlockLen v).result = s.result := rfl
@[simp] theorem State.setBlockLen_mem : (s.setBlockLen v).mem = s.mem := rfl
@[simp] theorem State.setBlockLen_nMax : (s.setBlockLen v).nMax = s.nMax := rfl
@[simp] theorem State.setBlockLen_epoch : (s.setBlockLen v).epoch = s.epoch := rfl
@[simp] theorem State.setBlockLen_rdata : (s.setBlockLen v).rdata = s.rdata := rfl
@[simp] theorem State.setBlockLen_order : (s.setBlockLen v).order = s.order := rfl
end

section
variable (s : State) (v : Word)
@[simp] theorem State.setSampleRate_ctrl : (s.setSampleRate v).ctrl = s.ctrl := rfl
@[simp] theorem State.setSampleRate_status : (s.setSampleRate v).status = s.status := rfl
@[simp] theorem State.setSampleRate_blockLen : (s.setSampleRate v).blockLen = s.blockLen := rfl
@[simp] theorem State.setSampleRate_sampleRate : (s.setSampleRate v).sampleRate = v := rfl
@[simp] theorem State.setSampleRate_resultSeq : (s.setSampleRate v).resultSeq = s.resultSeq := rfl
@[simp] theorem State.setSampleRate_errInfo : (s.setSampleRate v).errInfo = s.errInfo := rfl
@[simp] theorem State.setSampleRate_result : (s.setSampleRate v).result = s.result := rfl
@[simp] theorem State.setSampleRate_mem : (s.setSampleRate v).mem = s.mem := rfl
@[simp] theorem State.setSampleRate_nMax : (s.setSampleRate v).nMax = s.nMax := rfl
@[simp] theorem State.setSampleRate_epoch : (s.setSampleRate v).epoch = s.epoch := rfl
@[simp] theorem State.setSampleRate_rdata : (s.setSampleRate v).rdata = s.rdata := rfl
@[simp] theorem State.setSampleRate_order : (s.setSampleRate v).order = s.order := rfl
end

section
variable (s : State) (v : Word)
@[simp] theorem State.setResultSeq_ctrl : (s.setResultSeq v).ctrl = s.ctrl := rfl
@[simp] theorem State.setResultSeq_status : (s.setResultSeq v).status = s.status := rfl
@[simp] theorem State.setResultSeq_blockLen : (s.setResultSeq v).blockLen = s.blockLen := rfl
@[simp] theorem State.setResultSeq_sampleRate : (s.setResultSeq v).sampleRate = s.sampleRate := rfl
@[simp] theorem State.setResultSeq_resultSeq : (s.setResultSeq v).resultSeq = v := rfl
@[simp] theorem State.setResultSeq_errInfo : (s.setResultSeq v).errInfo = s.errInfo := rfl
@[simp] theorem State.setResultSeq_result : (s.setResultSeq v).result = s.result := rfl
@[simp] theorem State.setResultSeq_mem : (s.setResultSeq v).mem = s.mem := rfl
@[simp] theorem State.setResultSeq_nMax : (s.setResultSeq v).nMax = s.nMax := rfl
@[simp] theorem State.setResultSeq_epoch : (s.setResultSeq v).epoch = s.epoch := rfl
@[simp] theorem State.setResultSeq_rdata : (s.setResultSeq v).rdata = s.rdata := rfl
@[simp] theorem State.setResultSeq_order : (s.setResultSeq v).order = s.order := rfl
end

section
variable (s : State) (v : Word)
@[simp] theorem State.setErrInfo_ctrl : (s.setErrInfo v).ctrl = s.ctrl := rfl
@[simp] theorem State.setErrInfo_status : (s.setErrInfo v).status = s.status := rfl
@[simp] theorem State.setErrInfo_blockLen : (s.setErrInfo v).blockLen = s.blockLen := rfl
@[simp] theorem State.setErrInfo_sampleRate : (s.setErrInfo v).sampleRate = s.sampleRate := rfl
@[simp] theorem State.setErrInfo_resultSeq : (s.setErrInfo v).resultSeq = s.resultSeq := rfl
@[simp] theorem State.setErrInfo_errInfo : (s.setErrInfo v).errInfo = v := rfl
@[simp] theorem State.setErrInfo_result : (s.setErrInfo v).result = s.result := rfl
@[simp] theorem State.setErrInfo_mem : (s.setErrInfo v).mem = s.mem := rfl
@[simp] theorem State.setErrInfo_nMax : (s.setErrInfo v).nMax = s.nMax := rfl
@[simp] theorem State.setErrInfo_epoch : (s.setErrInfo v).epoch = s.epoch := rfl
@[simp] theorem State.setErrInfo_rdata : (s.setErrInfo v).rdata = s.rdata := rfl
@[simp] theorem State.setErrInfo_order : (s.setErrInfo v).order = s.order := rfl
end

section
variable (s : State) (v : Vector Word 88)
@[simp] theorem State.setResult_ctrl : (s.setResult v).ctrl = s.ctrl := rfl
@[simp] theorem State.setResult_status : (s.setResult v).status = s.status := rfl
@[simp] theorem State.setResult_blockLen : (s.setResult v).blockLen = s.blockLen := rfl
@[simp] theorem State.setResult_sampleRate : (s.setResult v).sampleRate = s.sampleRate := rfl
@[simp] theorem State.setResult_resultSeq : (s.setResult v).resultSeq = s.resultSeq := rfl
@[simp] theorem State.setResult_errInfo : (s.setResult v).errInfo = s.errInfo := rfl
@[simp] theorem State.setResult_result : (s.setResult v).result = v := rfl
@[simp] theorem State.setResult_mem : (s.setResult v).mem = s.mem := rfl
@[simp] theorem State.setResult_nMax : (s.setResult v).nMax = s.nMax := rfl
@[simp] theorem State.setResult_epoch : (s.setResult v).epoch = s.epoch := rfl
@[simp] theorem State.setResult_rdata : (s.setResult v).rdata = s.rdata := rfl
@[simp] theorem State.setResult_order : (s.setResult v).order = s.order := rfl
end

section
variable (s : State) (v : Memory)
@[simp] theorem State.setMem_ctrl : (s.setMem v).ctrl = s.ctrl := rfl
@[simp] theorem State.setMem_status : (s.setMem v).status = s.status := rfl
@[simp] theorem State.setMem_blockLen : (s.setMem v).blockLen = s.blockLen := rfl
@[simp] theorem State.setMem_sampleRate : (s.setMem v).sampleRate = s.sampleRate := rfl
@[simp] theorem State.setMem_resultSeq : (s.setMem v).resultSeq = s.resultSeq := rfl
@[simp] theorem State.setMem_errInfo : (s.setMem v).errInfo = s.errInfo := rfl
@[simp] theorem State.setMem_result : (s.setMem v).result = s.result := rfl
@[simp] theorem State.setMem_mem : (s.setMem v).mem = v := rfl
@[simp] theorem State.setMem_nMax : (s.setMem v).nMax = s.nMax := rfl
@[simp] theorem State.setMem_epoch : (s.setMem v).epoch = s.epoch := rfl
@[simp] theorem State.setMem_rdata : (s.setMem v).rdata = s.rdata := rfl
@[simp] theorem State.setMem_order : (s.setMem v).order = s.order := rfl
end

section
variable (s : State) (v : Word)
@[simp] theorem State.setRdata_ctrl : (s.setRdata v).ctrl = s.ctrl := rfl
@[simp] theorem State.setRdata_status : (s.setRdata v).status = s.status := rfl
@[simp] theorem State.setRdata_blockLen : (s.setRdata v).blockLen = s.blockLen := rfl
@[simp] theorem State.setRdata_sampleRate : (s.setRdata v).sampleRate = s.sampleRate := rfl
@[simp] theorem State.setRdata_resultSeq : (s.setRdata v).resultSeq = s.resultSeq := rfl
@[simp] theorem State.setRdata_errInfo : (s.setRdata v).errInfo = s.errInfo := rfl
@[simp] theorem State.setRdata_result : (s.setRdata v).result = s.result := rfl
@[simp] theorem State.setRdata_mem : (s.setRdata v).mem = s.mem := rfl
@[simp] theorem State.setRdata_nMax : (s.setRdata v).nMax = s.nMax := rfl
@[simp] theorem State.setRdata_epoch : (s.setRdata v).epoch = s.epoch := rfl
@[simp] theorem State.setRdata_rdata : (s.setRdata v).rdata = v := rfl
@[simp] theorem State.setRdata_order : (s.setRdata v).order = s.order := rfl
end

section
variable (s : State) (v : List Event)
@[simp] theorem State.setOrder_ctrl : (s.setOrder v).ctrl = s.ctrl := rfl
@[simp] theorem State.setOrder_status : (s.setOrder v).status = s.status := rfl
@[simp] theorem State.setOrder_blockLen : (s.setOrder v).blockLen = s.blockLen := rfl
@[simp] theorem State.setOrder_sampleRate : (s.setOrder v).sampleRate = s.sampleRate := rfl
@[simp] theorem State.setOrder_resultSeq : (s.setOrder v).resultSeq = s.resultSeq := rfl
@[simp] theorem State.setOrder_errInfo : (s.setOrder v).errInfo = s.errInfo := rfl
@[simp] theorem State.setOrder_result : (s.setOrder v).result = s.result := rfl
@[simp] theorem State.setOrder_mem : (s.setOrder v).mem = s.mem := rfl
@[simp] theorem State.setOrder_nMax : (s.setOrder v).nMax = s.nMax := rfl
@[simp] theorem State.setOrder_epoch : (s.setOrder v).epoch = s.epoch := rfl
@[simp] theorem State.setOrder_rdata : (s.setOrder v).rdata = s.rdata := rfl
@[simp] theorem State.setOrder_order : (s.setOrder v).order = v := rfl
end

section
variable (t : Status) (c : BitVec 4)
@[simp] theorem Status.setOverrun_busy : t.setOverrun.busy = t.busy := rfl
@[simp] theorem Status.setOverrun_done : t.setOverrun.done = t.done := rfl
@[simp] theorem Status.setOverrun_err : t.setOverrun.err = t.err := rfl
@[simp] theorem Status.setOverrun_errCause : t.setOverrun.errCause = t.errCause := rfl
@[simp] theorem Status.setOverrun_overrun : t.setOverrun.overrun = true := rfl
@[simp] theorem Status.setOverrun_wrBusy : t.setOverrun.wrBusy = t.wrBusy := rfl
@[simp] theorem Status.setOverrun_badCmd : t.setOverrun.badCmd = t.badCmd := rfl
@[simp] theorem Status.setOverrun_badAccess : t.setOverrun.badAccess = t.badAccess := rfl
@[simp] theorem Status.setWrBusy_busy : t.setWrBusy.busy = t.busy := rfl
@[simp] theorem Status.setWrBusy_done : t.setWrBusy.done = t.done := rfl
@[simp] theorem Status.setWrBusy_err : t.setWrBusy.err = t.err := rfl
@[simp] theorem Status.setWrBusy_errCause : t.setWrBusy.errCause = t.errCause := rfl
@[simp] theorem Status.setWrBusy_overrun : t.setWrBusy.overrun = t.overrun := rfl
@[simp] theorem Status.setWrBusy_wrBusy : t.setWrBusy.wrBusy = true := rfl
@[simp] theorem Status.setWrBusy_badCmd : t.setWrBusy.badCmd = t.badCmd := rfl
@[simp] theorem Status.setWrBusy_badAccess : t.setWrBusy.badAccess = t.badAccess := rfl
@[simp] theorem Status.setBadCmd_busy : t.setBadCmd.busy = t.busy := rfl
@[simp] theorem Status.setBadCmd_done : t.setBadCmd.done = t.done := rfl
@[simp] theorem Status.setBadCmd_err : t.setBadCmd.err = t.err := rfl
@[simp] theorem Status.setBadCmd_errCause : t.setBadCmd.errCause = t.errCause := rfl
@[simp] theorem Status.setBadCmd_overrun : t.setBadCmd.overrun = t.overrun := rfl
@[simp] theorem Status.setBadCmd_wrBusy : t.setBadCmd.wrBusy = t.wrBusy := rfl
@[simp] theorem Status.setBadCmd_badCmd : t.setBadCmd.badCmd = true := rfl
@[simp] theorem Status.setBadCmd_badAccess : t.setBadCmd.badAccess = t.badAccess := rfl
@[simp] theorem Status.setBadAccess_busy : t.setBadAccess.busy = t.busy := rfl
@[simp] theorem Status.setBadAccess_done : t.setBadAccess.done = t.done := rfl
@[simp] theorem Status.setBadAccess_err : t.setBadAccess.err = t.err := rfl
@[simp] theorem Status.setBadAccess_errCause : t.setBadAccess.errCause = t.errCause := rfl
@[simp] theorem Status.setBadAccess_overrun : t.setBadAccess.overrun = t.overrun := rfl
@[simp] theorem Status.setBadAccess_wrBusy : t.setBadAccess.wrBusy = t.wrBusy := rfl
@[simp] theorem Status.setBadAccess_badCmd : t.setBadAccess.badCmd = t.badCmd := rfl
@[simp] theorem Status.setBadAccess_badAccess : t.setBadAccess.badAccess = true := rfl
@[simp] theorem Status.started_busy : t.started.busy = true := rfl
@[simp] theorem Status.started_done : t.started.done = false := rfl
@[simp] theorem Status.started_err : t.started.err = false := rfl
@[simp] theorem Status.started_errCause : t.started.errCause = 0#4 := rfl
@[simp] theorem Status.started_overrun : t.started.overrun = t.overrun := rfl
@[simp] theorem Status.started_wrBusy : t.started.wrBusy = t.wrBusy := rfl
@[simp] theorem Status.started_badCmd : t.started.badCmd = t.badCmd := rfl
@[simp] theorem Status.started_badAccess : t.started.badAccess = t.badAccess := rfl
@[simp] theorem Status.committed_busy : t.committed.busy = false := rfl
@[simp] theorem Status.committed_done : t.committed.done = true := rfl
@[simp] theorem Status.committed_err : t.committed.err = t.err := rfl
@[simp] theorem Status.committed_errCause : t.committed.errCause = t.errCause := rfl
@[simp] theorem Status.committed_overrun : t.committed.overrun = t.overrun := rfl
@[simp] theorem Status.committed_wrBusy : t.committed.wrBusy = t.wrBusy := rfl
@[simp] theorem Status.committed_badCmd : t.committed.badCmd = t.badCmd := rfl
@[simp] theorem Status.committed_badAccess : t.committed.badAccess = t.badAccess := rfl
@[simp] theorem Status.cleared_busy : t.cleared.busy = t.busy := rfl
@[simp] theorem Status.cleared_done : t.cleared.done = false := rfl
@[simp] theorem Status.cleared_err : t.cleared.err = false := rfl
@[simp] theorem Status.cleared_errCause : t.cleared.errCause = 0#4 := rfl
@[simp] theorem Status.cleared_overrun : t.cleared.overrun = false := rfl
@[simp] theorem Status.cleared_wrBusy : t.cleared.wrBusy = false := rfl
@[simp] theorem Status.cleared_badCmd : t.cleared.badCmd = false := rfl
@[simp] theorem Status.cleared_badAccess : t.cleared.badAccess = false := rfl
@[simp] theorem Status.failed_busy : (t.failed c).busy = false := rfl
@[simp] theorem Status.failed_done : (t.failed c).done = t.done := rfl
@[simp] theorem Status.failed_err : (t.failed c).err = true := rfl
@[simp] theorem Status.failed_errCause : (t.failed c).errCause = c := rfl
@[simp] theorem Status.failed_overrun : (t.failed c).overrun = t.overrun := rfl
@[simp] theorem Status.failed_wrBusy : (t.failed c).wrBusy = t.wrBusy := rfl
@[simp] theorem Status.failed_badCmd : (t.failed c).badCmd = t.badCmd := rfl
@[simp] theorem Status.failed_badAccess : (t.failed c).badAccess = t.badAccess := rfl
end

section
variable (s : State) (c : BitVec 4) (info w : Word) (h : Vector Word 88) (i : Nat)
@[simp] theorem State.flagBadAccess_ctrl : s.flagBadAccess.ctrl = s.ctrl := rfl
@[simp] theorem State.flagBadAccess_status : s.flagBadAccess.status = s.status.setBadAccess := rfl
@[simp] theorem State.flagBadAccess_blockLen : s.flagBadAccess.blockLen = s.blockLen := rfl
@[simp] theorem State.flagBadAccess_sampleRate : s.flagBadAccess.sampleRate = s.sampleRate := rfl
@[simp] theorem State.flagBadAccess_resultSeq : s.flagBadAccess.resultSeq = s.resultSeq := rfl
@[simp] theorem State.flagBadAccess_errInfo : s.flagBadAccess.errInfo = s.errInfo := rfl
@[simp] theorem State.flagBadAccess_result : s.flagBadAccess.result = s.result := rfl
@[simp] theorem State.flagBadAccess_mem : s.flagBadAccess.mem = s.mem := rfl
@[simp] theorem State.flagBadAccess_nMax : s.flagBadAccess.nMax = s.nMax := rfl
@[simp] theorem State.flagBadAccess_epoch : s.flagBadAccess.epoch = s.epoch := rfl
@[simp] theorem State.flagBadAccess_rdata : s.flagBadAccess.rdata = s.rdata := rfl
@[simp] theorem State.flagBadAccess_order : s.flagBadAccess.order = s.order := rfl
@[simp] theorem State.flagBadCmd_ctrl : s.flagBadCmd.ctrl = s.ctrl := rfl
@[simp] theorem State.flagBadCmd_status : s.flagBadCmd.status = s.status.setBadCmd := rfl
@[simp] theorem State.flagBadCmd_blockLen : s.flagBadCmd.blockLen = s.blockLen := rfl
@[simp] theorem State.flagBadCmd_sampleRate : s.flagBadCmd.sampleRate = s.sampleRate := rfl
@[simp] theorem State.flagBadCmd_resultSeq : s.flagBadCmd.resultSeq = s.resultSeq := rfl
@[simp] theorem State.flagBadCmd_errInfo : s.flagBadCmd.errInfo = s.errInfo := rfl
@[simp] theorem State.flagBadCmd_result : s.flagBadCmd.result = s.result := rfl
@[simp] theorem State.flagBadCmd_mem : s.flagBadCmd.mem = s.mem := rfl
@[simp] theorem State.flagBadCmd_nMax : s.flagBadCmd.nMax = s.nMax := rfl
@[simp] theorem State.flagBadCmd_epoch : s.flagBadCmd.epoch = s.epoch := rfl
@[simp] theorem State.flagBadCmd_rdata : s.flagBadCmd.rdata = s.rdata := rfl
@[simp] theorem State.flagBadCmd_order : s.flagBadCmd.order = s.order := rfl
@[simp] theorem State.flagWrBusy_ctrl : s.flagWrBusy.ctrl = s.ctrl := rfl
@[simp] theorem State.flagWrBusy_status : s.flagWrBusy.status = s.status.setWrBusy := rfl
@[simp] theorem State.flagWrBusy_blockLen : s.flagWrBusy.blockLen = s.blockLen := rfl
@[simp] theorem State.flagWrBusy_sampleRate : s.flagWrBusy.sampleRate = s.sampleRate := rfl
@[simp] theorem State.flagWrBusy_resultSeq : s.flagWrBusy.resultSeq = s.resultSeq := rfl
@[simp] theorem State.flagWrBusy_errInfo : s.flagWrBusy.errInfo = s.errInfo := rfl
@[simp] theorem State.flagWrBusy_result : s.flagWrBusy.result = s.result := rfl
@[simp] theorem State.flagWrBusy_mem : s.flagWrBusy.mem = s.mem := rfl
@[simp] theorem State.flagWrBusy_nMax : s.flagWrBusy.nMax = s.nMax := rfl
@[simp] theorem State.flagWrBusy_epoch : s.flagWrBusy.epoch = s.epoch := rfl
@[simp] theorem State.flagWrBusy_rdata : s.flagWrBusy.rdata = s.rdata := rfl
@[simp] theorem State.flagWrBusy_order : s.flagWrBusy.order = s.order := rfl
@[simp] theorem State.flagOverrun_ctrl : s.flagOverrun.ctrl = s.ctrl := rfl
@[simp] theorem State.flagOverrun_status : s.flagOverrun.status = s.status.setOverrun := rfl
@[simp] theorem State.flagOverrun_blockLen : s.flagOverrun.blockLen = s.blockLen := rfl
@[simp] theorem State.flagOverrun_sampleRate : s.flagOverrun.sampleRate = s.sampleRate := rfl
@[simp] theorem State.flagOverrun_resultSeq : s.flagOverrun.resultSeq = s.resultSeq := rfl
@[simp] theorem State.flagOverrun_errInfo : s.flagOverrun.errInfo = s.errInfo := rfl
@[simp] theorem State.flagOverrun_result : s.flagOverrun.result = s.result := rfl
@[simp] theorem State.flagOverrun_mem : s.flagOverrun.mem = s.mem := rfl
@[simp] theorem State.flagOverrun_nMax : s.flagOverrun.nMax = s.nMax := rfl
@[simp] theorem State.flagOverrun_epoch : s.flagOverrun.epoch = s.epoch := rfl
@[simp] theorem State.flagOverrun_rdata : s.flagOverrun.rdata = s.rdata := rfl
@[simp] theorem State.flagOverrun_order : s.flagOverrun.order = s.order := rfl
@[simp] theorem State.badRead_ctrl : s.badRead.ctrl = s.ctrl := rfl
@[simp] theorem State.badRead_status : s.badRead.status = s.status.setBadAccess := rfl
@[simp] theorem State.badRead_blockLen : s.badRead.blockLen = s.blockLen := rfl
@[simp] theorem State.badRead_sampleRate : s.badRead.sampleRate = s.sampleRate := rfl
@[simp] theorem State.badRead_resultSeq : s.badRead.resultSeq = s.resultSeq := rfl
@[simp] theorem State.badRead_errInfo : s.badRead.errInfo = s.errInfo := rfl
@[simp] theorem State.badRead_result : s.badRead.result = s.result := rfl
@[simp] theorem State.badRead_mem : s.badRead.mem = s.mem := rfl
@[simp] theorem State.badRead_nMax : s.badRead.nMax = s.nMax := rfl
@[simp] theorem State.badRead_epoch : s.badRead.epoch = s.epoch := rfl
@[simp] theorem State.badRead_rdata : s.badRead.rdata = 0#64 := rfl
@[simp] theorem State.badRead_order : s.badRead.order = s.order := rfl
@[simp] theorem State.takeInvalidBlock_ctrl : (s.takeInvalidBlock c info).ctrl = s.ctrl := rfl
@[simp] theorem State.takeInvalidBlock_status : (s.takeInvalidBlock c info).status = s.status.failed c := rfl
@[simp] theorem State.takeInvalidBlock_blockLen : (s.takeInvalidBlock c info).blockLen = s.blockLen := rfl
@[simp] theorem State.takeInvalidBlock_sampleRate : (s.takeInvalidBlock c info).sampleRate = s.sampleRate := rfl
@[simp] theorem State.takeInvalidBlock_resultSeq : (s.takeInvalidBlock c info).resultSeq = s.resultSeq := rfl
@[simp] theorem State.takeInvalidBlock_errInfo : (s.takeInvalidBlock c info).errInfo = info := rfl
@[simp] theorem State.takeInvalidBlock_result : (s.takeInvalidBlock c info).result = s.result := rfl
@[simp] theorem State.takeInvalidBlock_mem : (s.takeInvalidBlock c info).mem = s.mem := rfl
@[simp] theorem State.takeInvalidBlock_nMax : (s.takeInvalidBlock c info).nMax = s.nMax := rfl
@[simp] theorem State.takeInvalidBlock_epoch : (s.takeInvalidBlock c info).epoch = s.epoch := rfl
@[simp] theorem State.takeInvalidBlock_rdata : (s.takeInvalidBlock c info).rdata = s.rdata := rfl
@[simp] theorem State.takeInvalidBlock_order : (s.takeInvalidBlock c info).order = s.order := rfl
@[simp] theorem State.commit_ctrl : (s.commit h).ctrl = s.ctrl := rfl
@[simp] theorem State.commit_status : (s.commit h).status = s.status.committed := rfl
@[simp] theorem State.commit_blockLen : (s.commit h).blockLen = s.blockLen := rfl
@[simp] theorem State.commit_sampleRate : (s.commit h).sampleRate = s.sampleRate := rfl
@[simp] theorem State.commit_resultSeq : (s.commit h).resultSeq = s.resultSeq + 1#64 := rfl
@[simp] theorem State.commit_errInfo : (s.commit h).errInfo = s.errInfo := rfl
@[simp] theorem State.commit_result : (s.commit h).result = h := rfl
@[simp] theorem State.commit_mem : (s.commit h).mem = s.mem := rfl
@[simp] theorem State.commit_nMax : (s.commit h).nMax = s.nMax := rfl
@[simp] theorem State.commit_epoch : (s.commit h).epoch = s.epoch := rfl
@[simp] theorem State.commit_rdata : (s.commit h).rdata = s.rdata := rfl
@[simp] theorem State.commit_order : (s.commit h).order = s.order := rfl
@[simp] theorem State.writeSample_ctrl : (s.writeSample i w).ctrl = s.ctrl := rfl
@[simp] theorem State.writeSample_status : (s.writeSample i w).status = s.status := rfl
@[simp] theorem State.writeSample_blockLen : (s.writeSample i w).blockLen = s.blockLen := rfl
@[simp] theorem State.writeSample_sampleRate : (s.writeSample i w).sampleRate = s.sampleRate := rfl
@[simp] theorem State.writeSample_resultSeq : (s.writeSample i w).resultSeq = s.resultSeq := rfl
@[simp] theorem State.writeSample_errInfo : (s.writeSample i w).errInfo = s.errInfo := rfl
@[simp] theorem State.writeSample_result : (s.writeSample i w).result = s.result := rfl
@[simp] theorem State.writeSample_mem : (s.writeSample i w).mem = Memory.storeBytes s.mem (sampleAddr i) (wordBytes w) := rfl
@[simp] theorem State.writeSample_nMax : (s.writeSample i w).nMax = s.nMax := rfl
@[simp] theorem State.writeSample_epoch : (s.writeSample i w).epoch = s.epoch := rfl
@[simp] theorem State.writeSample_rdata : (s.writeSample i w).rdata = s.rdata := rfl
@[simp] theorem State.writeSample_order : (s.writeSample i w).order = s.order := rfl
@[simp] theorem State.resetEvent_ctrl : s.resetEvent.ctrl = Ctrl.reset := rfl
@[simp] theorem State.resetEvent_status : s.resetEvent.status = Status.reset := rfl
@[simp] theorem State.resetEvent_blockLen : s.resetEvent.blockLen = 0#32 := rfl
@[simp] theorem State.resetEvent_sampleRate : s.resetEvent.sampleRate = 0#64 := rfl
@[simp] theorem State.resetEvent_resultSeq : s.resetEvent.resultSeq = 0#64 := rfl
@[simp] theorem State.resetEvent_errInfo : s.resetEvent.errInfo = 0#64 := rfl
@[simp] theorem State.resetEvent_result : s.resetEvent.result = Vector.replicate 88 0#64 := rfl
@[simp] theorem State.resetEvent_mem : s.resetEvent.mem = [] := rfl
@[simp] theorem State.resetEvent_nMax : s.resetEvent.nMax = s.nMax := rfl
@[simp] theorem State.resetEvent_epoch : s.resetEvent.epoch = s.epoch + 1 := rfl
@[simp] theorem State.resetEvent_rdata : s.resetEvent.rdata = s.rdata := rfl
@[simp] theorem State.resetEvent_order : s.resetEvent.order = s.order := rfl
end

end Sys2Proof.Machine
end

