-- ==== Sys2Proof/Laws/Memory.lean ====
section
/-! SUPPORT. The byte memory behind SAMPLE: read after write, what a write leaves alone, and the canonical form, kept by every
memory operation. -/

namespace Sys2Proof.Machine

/-! ### One byte -/

@[simp] theorem Memory.load_nil (a : Nat) : Memory.load [] a = none := rfl

theorem Memory.load_store_same (m : Memory) (a : Nat) (b : Byte) : Memory.load (Memory.store m a b) a = some b := by
  induction m with
  | nil => simp [Memory.store, Memory.load]
  | cons c m ih =>
    obtain ⟨x, v⟩ := c
    simp only [Memory.store]
    split
    · simp [Memory.load]
    · split
      · simp [Memory.load]
      · rename_i h1 h2
        simp [Memory.load, ih, h2]

theorem Memory.load_store_other (m : Memory) (a x : Nat) (b : Byte) (h : x ≠ a) :
    Memory.load (Memory.store m a b) x = Memory.load m x := by
  induction m with
  | nil => simp [Memory.store, Memory.load, h]
  | cons c m ih =>
    obtain ⟨y, v⟩ := c
    simp only [Memory.store]
    split
    · simp [Memory.load, h]
    · split
      · rename_i h1 h2
        subst h2
        simp [Memory.load, h]
      · simp [Memory.load, ih]

/-! ### Consecutive bytes -/

theorem Memory.load_storeBytes_outside (m : Memory) (a x : Nat) (bs : List Byte) (h : x < a ∨ a + bs.length ≤ x) :
    Memory.load (Memory.storeBytes m a bs) x = Memory.load m x := by
  induction bs generalizing m a with
  | nil => rfl
  | cons b bs ih =>
    simp only [List.length_cons] at h
    rw [Memory.storeBytes, ih _ _ (by omega), Memory.load_store_other _ _ _ _ (by omega)]

theorem Memory.load_storeBytes_inside (m : Memory) (a j : Nat) (bs : List Byte) (h : j < bs.length) :
    Memory.load (Memory.storeBytes m a bs) (a + j) = some bs[j] := by
  induction bs generalizing m a j with
  | nil => simp at h
  | cons b bs ih =>
    cases j with
    | zero =>
      rw [Memory.storeBytes, Memory.load_storeBytes_outside _ _ _ _ (by omega)]
      exact Memory.load_store_same m a b
    | succ j =>
      have h' : j < bs.length := by simpa using h
      rw [Memory.storeBytes, show a + (j + 1) = (a + 1) + j by omega, ih _ _ _ h']
      rfl

/-! ### The canonical form -/

/-- The canonical form, as an order on the whole list. -/
theorem Memory.wf_iff (m : Memory) : Memory.wf m = true ↔ m.Pairwise (fun c d => c.1 < d.1) := by
  induction m with
  | nil => simp [Memory.wf]
  | cons c m ih =>
    cases m with
    | nil => simp [Memory.wf]
    | cons d m =>
      obtain ⟨a, b⟩ := c
      obtain ⟨a', b'⟩ := d
      rw [Memory.wf, Bool.and_eq_true, ih, decide_eq_true_eq, List.pairwise_cons (a := (a, b))]
      constructor
      · rintro ⟨h, hp⟩
        refine ⟨fun e he => ?_, hp⟩
        rcases List.mem_cons.1 he with rfl | he
        · exact h
        · exact lt_trans h ((List.pairwise_cons.1 hp).1 e he)
      · rintro ⟨h, hp⟩
        exact ⟨h (a', b') (by simp), hp⟩

theorem Memory.mem_store (m : Memory) (a : Nat) (b : Byte) (c : Host.Cell) (h : c ∈ Memory.store m a b) :
    c = (a, b) ∨ c ∈ m := by
  induction m with
  | nil => simpa [Memory.store] using h
  | cons d m ih =>
    obtain ⟨x, v⟩ := d
    simp only [Memory.store] at h
    split at h
    · simpa using h
    · split at h
      · rcases List.mem_cons.1 h with h | h
        · exact .inl h
        · exact .inr (List.mem_cons_of_mem _ h)
      · rcases List.mem_cons.1 h with h | h
        · exact .inr (by simp [h])
        · rcases ih h with h | h
          · exact .inl h
          · exact .inr (List.mem_cons_of_mem _ h)

theorem Memory.store_wf (m : Memory) (a : Nat) (b : Byte) (h : Memory.wf m = true) :
    Memory.wf (Memory.store m a b) = true := by
  rw [Memory.wf_iff] at h ⊢
  induction m with
  | nil => simp [Memory.store]
  | cons d m ih =>
    obtain ⟨x, v⟩ := d
    rw [List.pairwise_cons] at h
    simp only [Memory.store]
    split
    · rename_i hlt
      refine List.pairwise_cons.2 ⟨fun e he => ?_, List.pairwise_cons.2 h⟩
      rcases List.mem_cons.1 he with rfl | he
      · exact hlt
      · exact lt_trans hlt (h.1 e he)
    · split
      · rename_i h1 h2
        subst h2
        exact List.pairwise_cons.2 h
      · rename_i h1 h2
        refine List.pairwise_cons.2 ⟨fun e he => ?_, ih h.2⟩
        rcases Memory.mem_store m a b e he with rfl | he
        · show x < a; omega
        · exact h.1 e he

theorem Memory.storeBytes_wf (m : Memory) (a : Nat) (bs : List Byte) (h : Memory.wf m = true) :
    Memory.wf (Memory.storeBytes m a bs) = true := by
  induction bs generalizing m a with
  | nil => exact h
  | cons b bs ih => exact ih _ _ (Memory.store_wf _ _ _ h)

theorem Memory.mem_storeBytes (m : Memory) (a : Nat) (bs : List Byte) (c : Host.Cell)
    (h : c ∈ Memory.storeBytes m a bs) : (a ≤ c.1 ∧ c.1 < a + bs.length) ∨ c ∈ m := by
  induction bs generalizing m a with
  | nil => exact .inr h
  | cons b bs ih =>
    simp only [List.length_cons]
    rcases ih _ _ h with h | h
    · left; omega
    · rcases Memory.mem_store _ _ _ _ h with rfl | h
      · left; simp
      · exact .inr h

theorem Memory.load_eq_none_of_lt (m : Memory) (a : Nat) (h : ∀ c ∈ m, a < c.1) : Memory.load m a = none := by
  induction m with
  | nil => rfl
  | cons c m ih =>
    obtain ⟨x, v⟩ := c
    have hx : a < x := h (x, v) (by simp)
    rw [Memory.load, if_neg (by omega), ih fun d hd => h d (by simp [hd])]

/-- Canonical memories that load alike are the same data. -/
theorem Memory.eq_of_load (m n : Memory) (hm : Memory.wf m = true) (hn : Memory.wf n = true)
    (h : ∀ a, Memory.load m a = Memory.load n a) : m = n := by
  rw [Memory.wf_iff] at hm hn
  induction m generalizing n with
  | nil =>
    cases n with
    | nil => rfl
    | cons d n =>
      obtain ⟨y, u⟩ := d
      simpa [Memory.load] using h y
  | cons c m ih =>
    obtain ⟨x, v⟩ := c
    cases n with
    | nil => simpa [Memory.load] using h x
    | cons d n =>
      obtain ⟨y, u⟩ := d
      rw [List.pairwise_cons] at hm hn
      have hmx : Memory.load m x = none := Memory.load_eq_none_of_lt m x hm.1
      have hny : Memory.load n y = none := Memory.load_eq_none_of_lt n y hn.1
      have hxy : x = y := by
        rcases lt_trichotomy x y with hlt | heq | hgt
        · have hnx : Memory.load n x = none :=
            Memory.load_eq_none_of_lt n x fun e he => lt_trans hlt (hn.1 e he)
          have := h x
          rw [Memory.load, if_pos rfl, Memory.load, if_neg (by omega), hnx] at this
          cases this
        · exact heq
        · have hmy : Memory.load m y = none :=
            Memory.load_eq_none_of_lt m y fun e he => lt_trans hgt (hm.1 e he)
          have := h y
          rw [Memory.load, if_neg (by omega), Memory.load, if_pos rfl, hmy] at this
          cases this
      subst hxy
      have hv : v = u := by simpa [Memory.load] using h x
      subst hv
      congr 1
      refine ih n hm.2 hn.2 fun a => ?_
      by_cases ha : a = x
      · subst ha; rw [hmx, hny]
      · have := h a
        rwa [Memory.load, if_neg ha, Memory.load, if_neg ha] at this

theorem State.reset_mem_wf : Memory.wf State.reset.mem = true := rfl

theorem State.writeSample_mem_wf (s : State) (i : Nat) (w : Word) (h : Memory.wf s.mem = true) :
    Memory.wf (s.writeSample i w).mem = true :=
  Memory.storeBytes_wf _ _ _ h

/-! ### Byte lanes and whole elements -/

/-- A value is put together again from its byte lanes. -/
theorem wordOfLanes_byteLane (w : Word) : wordOfLanes (byteLane w) = w := by
  apply BitVec.eq_of_getLsbD_eq
  intro i hi
  simp only [wordOfLanes, byteLane, BitVec.getLsbD_append, BitVec.getLsbD_extractLsb']
  interval_cases i <;> rfl

/-- A lane of a value made of lanes. -/
theorem byteLane_wordOfLanes (f : Nat → Byte) (j : Nat) (hj : j < 8) : byteLane (wordOfLanes f) j = f j := by
  apply BitVec.eq_of_getLsbD_eq
  intro i hi
  simp only [wordOfLanes, byteLane, BitVec.getLsbD_append, BitVec.getLsbD_extractLsb', hi, decide_true, Bool.true_and]
  interval_cases j <;> interval_cases i <;> rfl

theorem wordBytes_length (w : Word) : (wordBytes w).length = 8 := rfl

theorem wordBytes_getElem (w : Word) (j : Nat) (h : j < (wordBytes w).length) : (wordBytes w)[j] = byteLane w j := by
  have : j < 8 := h
  interval_cases j <;> rfl

/-- Two values with the same lanes are the same. -/
theorem wordOfLanes_congr (f g : Nat → Byte) (h : ∀ j < 8, f j = g j) : wordOfLanes f = wordOfLanes g := by
  simp only [wordOfLanes, h 0 (by omega), h 1 (by omega), h 2 (by omega), h 3 (by omega), h 4 (by omega), h 5 (by omega),
    h 6 (by omega), h 7 (by omega)]

theorem State.readByte_writeSample_inside (s : State) (i j : Nat) (w : Word) (h : j < 8) :
    (s.writeSample i w).readByte (sampleAddr i + j) = byteLane w j := by
  have := Memory.load_storeBytes_inside s.mem (sampleAddr i) j (wordBytes w) h
  simp only [State.readByte, State.writeSample_mem, this]
  exact wordBytes_getElem w j h

theorem State.readByte_writeSample_outside (s : State) (i a : Nat) (w : Word)
    (h : a < sampleAddr i ∨ sampleAddr i + 8 ≤ a) : (s.writeSample i w).readByte a = s.readByte a := by
  have := Memory.load_storeBytes_outside s.mem (sampleAddr i) a (wordBytes w) (by simpa [wordBytes_length] using h)
  simp only [State.readByte, State.writeSample_mem, State.writeSample_epoch, this]

/-- Read after write: the element written. -/
@[simp] theorem State.sampleAt_writeSample_same (s : State) (i : Nat) (w : Word) : (s.writeSample i w).sampleAt i = w := by
  rw [State.sampleAt, wordOfLanes_congr _ (byteLane w) (fun j hj => State.readByte_writeSample_inside s i j w hj),
    wordOfLanes_byteLane]

/-- Read after write: every other element. -/
theorem State.sampleAt_writeSample_other (s : State) (i j : Nat) (w : Word) (h : j ≠ i) :
    (s.writeSample i w).sampleAt j = s.sampleAt j := by
  refine wordOfLanes_congr _ _ fun l hl => State.readByte_writeSample_outside s i _ w ?_
  simp only [sampleAddr]
  omega

/-- SAMPLE depends on the memory and the draw alone. -/
theorem State.sampleAt_congr (s t : State) (hm : s.mem = t.mem) (he : s.epoch = t.epoch) (i : Nat) :
    s.sampleAt i = t.sampleAt i := by
  simp only [State.sampleAt, State.readByte, hm, he]

/-- An element nothing wrote since the reset holds its drawn pattern (10_state.md R29). -/
theorem State.sampleAt_unwritten (s : State) (i : Nat) (h : ∀ j < 8, Memory.load s.mem (sampleAddr i + j) = none) :
    s.sampleAt i = Config.sampleDraw s.epoch i := by
  rw [State.sampleAt, wordOfLanes_congr _ (byteLane (Config.sampleDraw s.epoch i)), wordOfLanes_byteLane]
  intro j hj
  simp only [State.readByte, h j hj, drawnByte]
  rw [show (sampleAddr i + j - sampleBase) / 8 = i by simp only [sampleAddr]; omega,
    show (sampleAddr i + j - sampleBase) % 8 = j by simp only [sampleAddr]; omega]

end Sys2Proof.Machine
end

