-- ==== Sys2Proof/Laws/Access.lean ====
section
/-! SUPPORT. The two bus operations: when an access is defined, which register an address selects, and, said once, everything an
instruction can do to the state. -/

namespace Sys2Proof.Machine

theorem definedAccess_iff (a : BitVec 24) (size : BitVec 2) :
    definedAccess a size = true ↔ size = 3#2 ∧ a.toNat % 8 = 0 := by
  have h : a.extractLsb' 0 3 = 0#3 ↔ a.toNat % 8 = 0 := by
    rw [← BitVec.toNat_inj]
    simp [BitVec.extractLsb'_toNat]
  simp [definedAccess, h]

/-- The 8-byte-aligned address at or below an address (20_memory.md R35). -/
theorem alignDown_toNat (a : BitVec 24) : (a &&& 0xFFFFF8#24).toNat = a.toNat - a.toNat % 8 := by
  have h : a &&& 0xFFFFF8#24 = (a >>> 3) <<< 3 := by
    apply BitVec.eq_of_getLsbD_eq
    intro i hi
    have hm : ∀ k : Fin 24, BitVec.getLsbD 0xFFFFF8#24 k.val = decide (3 ≤ k.val) := by decide
    rw [BitVec.getLsbD_and, hm ⟨i, hi⟩, BitVec.getLsbD_shiftLeft, BitVec.getLsbD_ushiftRight]
    by_cases h3 : 3 ≤ i
    · rw [show 3 + (i - 3) = i by omega]
      simp [h3, hi, show ¬i < 3 by omega]
    · simp [h3, show i < 3 by omega]
  have ha := a.isLt
  rw [h, BitVec.toNat_shiftLeft, BitVec.toNat_ushiftRight, Nat.shiftRight_eq_div_pow, Nat.shiftLeft_eq]
  omega

/-- Where in the address map of 10_state.md R16 a register lies. -/
def Reg.covers (nMax x : Nat) : Reg → Prop
  | .id => x = 0x0000
  | .caps => x = 0x0008
  | .ctrl => x = 0x0010
  | .status => x = 0x0018
  | .cmd => x = 0x0020
  | .blockLen => x = 0x0028
  | .sampleRate => x = 0x0030
  | .resultSeq => x = 0x0038
  | .errInfo => x = 0x0040
  | .result k => 0x1000 ≤ x ∧ x < 0x1000 + 8 * 88 ∧ k.val = (x - 0x1000) / 8
  | .freq k => 0x2000 ≤ x ∧ x < 0x2000 + 8 * 88 ∧ k.val = (x - 0x2000) / 8
  | .sample i => 0x10000 ≤ x ∧ x < 0x10000 + 8 * nMax ∧ i = (x - 0x10000) / 8
  | .unmapped => ¬(x % 8 = 0 ∧ x ≤ 0x0040) ∧ ¬(0x1000 ≤ x ∧ x < 0x1000 + 8 * 88) ∧
      ¬(0x2000 ≤ x ∧ x < 0x2000 + 8 * 88) ∧ ¬(0x10000 ≤ x ∧ x < 0x10000 + 8 * nMax)

/-- Everything `select` can answer (30_encoding.md R50). -/
theorem select_covers (nMax : Nat) (a : BitVec 24) : (select nMax a).covers nMax a.toNat := by
  unfold select
  iterate 9
    refine iteInduction (motive := Reg.covers nMax a.toNat) (fun h => h) fun _ => ?_
  by_cases h1 : 0x1000 ≤ a.toNat ∧ a.toNat < 0x1000 + 8 * 88
  · rw [dif_pos h1]; exact ⟨h1.1, h1.2, rfl⟩
  · rw [dif_neg h1]
    by_cases h2 : 0x2000 ≤ a.toNat ∧ a.toNat < 0x2000 + 8 * 88
    · rw [dif_pos h2]; exact ⟨h2.1, h2.2, rfl⟩
    · rw [dif_neg h2]
      refine iteInduction (motive := Reg.covers nMax a.toNat) (fun h => ⟨h.1, h.2, rfl⟩) fun h3 => ?_
      exact ⟨by omega, h1, h2, h3⟩

/-- The answer of `select` is the one register that covers the address. -/
theorem Reg.covers_unique (nMax x : Nat) (h8 : x % 8 = 0) (r q : Reg) (hr : r.covers nMax x) (hq : q.covers nMax x) :
    r = q := by
  cases r <;> cases q <;> simp only [Reg.covers] at hr hq <;>
    first
    | rfl
    | (exfalso; omega)
    | (congr 1; omega)

theorem select_eq_of_covers (nMax : Nat) (a : BitVec 24) (r : Reg) (h8 : a.toNat % 8 = 0) (h : r.covers nMax a.toNat) :
    select nMax a = r :=
  Reg.covers_unique nMax a.toNat h8 _ _ (select_covers nMax a) h

theorem select_result (nMax : Nat) (k : Fin 88) : select nMax (BitVec.ofNat 24 (0x1000 + 8 * k.val)) = .result k := by
  have h : (BitVec.ofNat 24 (0x1000 + 8 * k.val)).toNat = 0x1000 + 8 * k.val := by
    rw [BitVec.toNat_ofNat]; omega
  refine select_eq_of_covers _ _ _ (by omega) ?_
  rw [h]
  exact ⟨by omega, by omega, by omega⟩

theorem select_freq (nMax : Nat) (k : Fin 88) : select nMax (BitVec.ofNat 24 (0x2000 + 8 * k.val)) = .freq k := by
  have h : (BitVec.ofNat 24 (0x2000 + 8 * k.val)).toNat = 0x2000 + 8 * k.val := by
    rw [BitVec.toNat_ofNat]; omega
  refine select_eq_of_covers _ _ _ (by omega) ?_
  rw [h]
  exact ⟨by omega, by omega, by omega⟩

theorem select_sample (nMax i : Nat) (hn : nMax ≤ 2 ^ 20) (hi : i < nMax) :
    select nMax (BitVec.ofNat 24 (0x10000 + 8 * i)) = .sample i := by
  have h : (BitVec.ofNat 24 (0x10000 + 8 * i)).toNat = 0x10000 + 8 * i := by
    rw [BitVec.toNat_ofNat]; omega
  refine select_eq_of_covers _ _ _ (by omega) ?_
  rw [h]
  exact ⟨by omega, by omega, by omega⟩

/-- A selected sample lies in the buffer. -/
theorem select_sample_lt (nMax i : Nat) (a : BitVec 24) (h : select nMax a = .sample i) : i < nMax := by
  have := select_covers nMax a
  rw [h] at this
  simp only [Reg.covers] at this
  omega

theorem execBusRead_undefined (a : BitVec 24) (size : BitVec 2) (s : State) (h : definedAccess a size = false) :
    execBusRead a size s = .next s.badRead := by simp [execBusRead, h]

theorem execBusRead_unmapped (a : BitVec 24) (size : BitVec 2) (s : State) (h : definedAccess a size = true)
    (hr : select s.nMax a = .unmapped) : execBusRead a size s = .next s.badRead := by simp [execBusRead, h, hr]

theorem execBusRead_mapped (a : BitVec 24) (size : BitVec 2) (s : State) (h : definedAccess a size = true)
    (hr : select s.nMax a ≠ .unmapped) :
    execBusRead a size s = .next (s.setRdata (s.readReg (select s.nMax a))) := by
  unfold execBusRead
  rw [if_pos h]
  split
  · rename_i hu; exact absurd hu hr
  · rfl

theorem execBusWrite_undefined (a : BitVec 24) (size : BitVec 2) (w : Word) (s : State) (h : definedAccess a size = false) :
    execBusWrite a size w s = .next s.flagBadAccess := by simp [execBusWrite, h]

theorem execBusWrite_defined (a : BitVec 24) (size : BitVec 2) (w : Word) (s : State) (h : definedAccess a size = true) :
    execBusWrite a size w s = writeReg (select s.nMax a) w s := by simp [execBusWrite, h]

/-- A defined read of the register that covers the address. -/
theorem exec_busRead_of_covers (a : BitVec 24) (s : State) (r : Reg) (h8 : a.toNat % 8 = 0)
    (hr : r.covers s.nMax a.toNat) (hu : r ≠ .unmapped) :
    exec (.busRead a 3#2) s = .next (s.setRdata (s.readReg r)) := by
  have hs := select_eq_of_covers _ _ _ h8 hr
  show execBusRead a 3#2 s = _
  rw [execBusRead_mapped _ _ _ ((definedAccess_iff _ _).2 ⟨rfl, h8⟩) (hs ▸ hu), hs]

/-- A defined write to the register that covers the address. -/
theorem exec_busWrite_of_covers (a : BitVec 24) (w : Word) (s : State) (r : Reg) (h8 : a.toNat % 8 = 0)
    (hr : r.covers s.nMax a.toNat) : exec (.busWrite a 3#2 w) s = writeReg r w s := by
  show execBusWrite a 3#2 w s = _
  rw [execBusWrite_defined _ _ _ _ ((definedAccess_iff _ _).2 ⟨rfl, h8⟩), select_eq_of_covers _ _ _ h8 hr]

theorem State.protectedWrite_busy (s t : State) (h : s.status.busy = true) : s.protectedWrite t = s.flagWrBusy := by
  simp [State.protectedWrite, h]

theorem State.protectedWrite_idle (s t : State) (h : s.status.busy = false) : s.protectedWrite t = t := by
  simp [State.protectedWrite, h]

/-- A BUS_WRITE of a legal command word to CMD does what the command does, so the one spelling `wellFormed` keeps loses nothing. -/
theorem execBusWrite_command (w : Word) (c : Command) (s : State) (h : decodeCmd w = some c) :
    exec (.busWrite 0x000020#24 3#2 w) s = exec c.toInstr s := by
  have hs : select s.nMax 0x000020#24 = .cmd := rfl
  show execBusWrite 0x000020#24 3#2 w s = _
  rw [execBusWrite_defined _ _ _ _ (by decide), hs]
  show runCommand (decodeCmd w) s = _
  rw [h]
  cases c <;> rfl

/-- Only offset 0x0020 selects CMD. -/
theorem select_cmd (nMax : Nat) (a : BitVec 24) (h : select nMax a = .cmd) : a = 0x000020#24 := by
  have := select_covers nMax a
  rw [h] at this
  exact BitVec.eq_of_toNat_eq this

/-- What the decoder leaves as a BUS_WRITE to CMD is a reserved command word (30_encoding.md R49, R53). -/
theorem decodeCmd_of_wellFormed (a : BitVec 24) (size : BitVec 2) (w : Word) (nMax : Nat)
    (hwf : (Instr.busWrite a size w).wellFormed = true) (hd : definedAccess a size = true) (hs : select nMax a = .cmd) :
    decodeCmd w = none := by
  have ha := select_cmd nMax a hs
  have hz := ((definedAccess_iff a size).1 hd).1
  cases hc : decodeCmd w with
  | none => rfl
  | some c =>
    have hl : legalCmdWord w = true := by rw [← decodeCmd_isSome, hc]; rfl
    simp [Instr.wellFormed, isCommandWrite, ha, hz, hl] at hwf

/-- Everything an instruction can do to the state. -/
inductive BusEffect (s : State) : State → Prop where
  | nothing : BusEffect s s
  | badAccess : BusEffect s s.flagBadAccess
  | badRead : BusEffect s s.badRead
  | read (v : Word) : BusEffect s (s.setRdata v)
  | badCmd : BusEffect s s.flagBadCmd
  | dropped (hb : s.status.busy = true) : BusEffect s s.flagWrBusy
  | overrun (hb : s.status.busy = true) : BusEffect s s.flagOverrun
  | started (hb : s.status.busy = false) : BusEffect s ((s.setStatus s.status.started).setErrInfo 0#64)
  | cleared : BusEffect s ((s.setStatus s.status.cleared).setErrInfo 0#64)
  | ctrl (hb : s.status.busy = false) (w : Word) : BusEffect s (s.setCtrl (s.ctrl.write w))
  | blockLen (hb : s.status.busy = false) (v : BitVec 32) : BusEffect s (s.setBlockLen v)
  | sampleRate (hb : s.status.busy = false) (w : Word) : BusEffect s (s.setSampleRate w)
  | sample (hb : s.status.busy = false) (i : Nat) (hi : i < s.nMax) (w : Word) : BusEffect s (s.writeSample i w)

theorem execStart_effect (s : State) : ∃ t, execStart s = .next t ∧ BusEffect s t := by
  unfold execStart
  split
  · rename_i h; exact ⟨_, rfl, .overrun h⟩
  · rename_i h; exact ⟨_, rfl, .started (by simpa using h)⟩

theorem runCommand_effect (c : Option Command) (s : State) : ∃ t, runCommand c s = .next t ∧ BusEffect s t := by
  cases c with
  | none => exact ⟨_, rfl, .badCmd⟩
  | some c =>
    cases c with
    | nop => exact ⟨_, rfl, .nothing⟩
    | start => exact execStart_effect s
    | clearStatus => exact ⟨_, rfl, .cleared⟩

theorem State.protectedWrite_effect (s t : State) (h : s.status.busy = false → BusEffect s t) :
    BusEffect s (s.protectedWrite t) := by
  cases hb : s.status.busy with
  | true => rw [State.protectedWrite_busy s t hb]; exact .dropped hb
  | false => rw [State.protectedWrite_idle s t hb]; exact h hb

theorem writeReg_effect (r : Reg) (w : Word) (s : State) (hr : ∀ i, r = .sample i → i < s.nMax) :
    ∃ t, writeReg r w s = .next t ∧ BusEffect s t := by
  cases r with
  | cmd => exact runCommand_effect _ s
  | ctrl => exact ⟨_, rfl, State.protectedWrite_effect s _ fun hb => .ctrl hb w⟩
  | blockLen => exact ⟨_, rfl, State.protectedWrite_effect s _ fun hb => .blockLen hb _⟩
  | sampleRate => exact ⟨_, rfl, State.protectedWrite_effect s _ fun hb => .sampleRate hb w⟩
  | sample i => exact ⟨_, rfl, State.protectedWrite_effect s _ fun hb => .sample hb i (hr i rfl) w⟩
  | id => exact ⟨_, rfl, .badAccess⟩
  | caps => exact ⟨_, rfl, .badAccess⟩
  | status => exact ⟨_, rfl, .badAccess⟩
  | resultSeq => exact ⟨_, rfl, .badAccess⟩
  | errInfo => exact ⟨_, rfl, .badAccess⟩
  | result k => exact ⟨_, rfl, .badAccess⟩
  | freq k => exact ⟨_, rfl, .badAccess⟩
  | unmapped => exact ⟨_, rfl, .badAccess⟩

/-- Every instruction answers a next state, and its effect is one of those listed. -/
theorem exec_effect (i : Instr) (s : State) : ∃ t, exec i s = .next t ∧ BusEffect s t := by
  cases i with
  | busRead a size =>
    show ∃ t, execBusRead a size s = .next t ∧ _
    unfold execBusRead
    split
    · split
      · exact ⟨_, rfl, .badRead⟩
      · exact ⟨_, rfl, .read _⟩
    · exact ⟨_, rfl, .badRead⟩
  | busWrite a size w =>
    show ∃ t, execBusWrite a size w s = .next t ∧ _
    cases h : definedAccess a size with
    | false => exact ⟨_, execBusWrite_undefined a size w s h, .badAccess⟩
    | true =>
      rw [execBusWrite_defined a size w s h]
      exact writeReg_effect _ w s fun i hi => select_sample_lt _ _ _ hi
  | nop => exact ⟨_, rfl, .nothing⟩
  | start => exact execStart_effect s
  | clearStatus => exact ⟨_, rfl, .cleared⟩

/-- The inversion of `exec_effect`. -/
theorem exec_cases (i : Instr) (s t : State) (h : exec i s = .next t) : BusEffect s t := by
  obtain ⟨u, hu, he⟩ := exec_effect i s
  rw [hu] at h
  cases h
  exact he

/-- Everything a BUS_READ can do (R96). -/
theorem exec_busRead_cases (a : BitVec 24) (sz : BitVec 2) (s t : State)
    (h : exec (.busRead a sz) s = .next t) :
    (t = s.badRead ∧ (definedAccess a sz = false ∨ select s.nMax a = .unmapped)) ∨ (∃ v, t = s.setRdata v) := by
  change execBusRead a sz s = _ at h
  unfold execBusRead at h
  split at h
  · split at h
    · rename_i hs; cases h; exact .inl ⟨rfl, .inr hs⟩
    · cases h; exact .inr ⟨_, rfl⟩
  · rename_i hd; cases h; exact .inl ⟨rfl, .inl (by simpa using hd)⟩

/-- Everything a START can do (44_block_process.md R84, R85). -/
theorem exec_start_cases (s t : State) (h : exec .start s = .next t) :
    (s.status.busy = true ∧ t = s.flagOverrun) ∨
    (s.status.busy = false ∧ t = (s.setStatus s.status.started).setErrInfo 0#64) := by
  change execStart s = _ at h
  unfold execStart at h
  split at h <;> cases h
  · rename_i h; exact .inl ⟨h, rfl⟩
  · rename_i h; exact .inr ⟨by simpa using h, rfl⟩

/-- Everything a well-formed BUS_WRITE can do to STATUS, and when (R97; 60_exceptions.md R106). -/
theorem exec_busWrite_cases (a : BitVec 24) (sz : BitVec 2) (w : Word) (s t : State)
    (hwf : (Instr.busWrite a sz w).wellFormed = true) (h : exec (.busWrite a sz w) s = .next t) :
    (t = s.flagBadAccess ∧ (definedAccess a sz = false ∨
      (select s.nMax a ∉ [Reg.cmd, .ctrl, .blockLen, .sampleRate] ∧ ∀ j, select s.nMax a ≠ .sample j))) ∨
    (t = s.flagBadCmd ∧ definedAccess a sz = true ∧ select s.nMax a = .cmd ∧ decodeCmd w = none) ∨
    (t = s.flagWrBusy ∧ s.status.busy = true ∧ definedAccess a sz = true ∧
      (select s.nMax a ∈ [Reg.ctrl, .blockLen, .sampleRate] ∨ ∃ i, select s.nMax a = .sample i)) ∨
    (t.status = s.status ∧ s.status.busy = false) := by
  change execBusWrite a sz w s = _ at h
  cases hd : definedAccess a sz with
  | false => rw [execBusWrite_undefined _ _ _ _ hd] at h; cases h; simp
  | true =>
    rw [execBusWrite_defined _ _ _ _ hd] at h
    cases hr : select s.nMax a with
    | cmd =>
      rw [hr] at h
      change runCommand (decodeCmd w) s = _ at h
      have := decodeCmd_of_wellFormed a sz w s.nMax hwf hd hr
      rw [this] at h; cases h
      exact .inr (.inl ⟨rfl, rfl, rfl, this⟩)
    | ctrl =>
      rw [hr] at h; obtain rfl := (Host.Outcome.next.inj h).symm
      cases hb : s.status.busy
      · rw [State.protectedWrite_idle _ _ hb]; simp
      · rw [State.protectedWrite_busy _ _ hb]; simp
    | blockLen =>
      rw [hr] at h; obtain rfl := (Host.Outcome.next.inj h).symm
      cases hb : s.status.busy
      · rw [State.protectedWrite_idle _ _ hb]; simp
      · rw [State.protectedWrite_busy _ _ hb]; simp
    | sampleRate =>
      rw [hr] at h; obtain rfl := (Host.Outcome.next.inj h).symm
      cases hb : s.status.busy
      · rw [State.protectedWrite_idle _ _ hb]; simp
      · rw [State.protectedWrite_busy _ _ hb]; simp
    | sample j =>
      rw [hr] at h; obtain rfl := (Host.Outcome.next.inj h).symm
      cases hb : s.status.busy
      · rw [State.protectedWrite_idle _ _ hb]; simp
      · rw [State.protectedWrite_busy _ _ hb]; simp
    | _ => rw [hr] at h; obtain rfl := (Host.Outcome.next.inj h).symm; exact .inl ⟨rfl, .inr ⟨by simp, by simp⟩⟩

end Sys2Proof.Machine
end

