-- ==== Sys2Proof/Laws/Binary64.lean ====
section
/-! SUPPORT. Binary64 patterns: the sign and the size of the number a pattern denotes, and its value by fields. -/

namespace Sys2Proof.Machine

theorem f64Scale_pow_pos (w : Word) : (0 : ℚ) < (2 : ℚ) ^ ((f64Scale w : ℤ) - 1075) := by positivity

/-- A pattern whose 63 low bits are 0 is a zero. -/
theorem isZero_iff (w : Word) : isZero w = true ↔ f64Exp w = 0#11 ∧ f64Frac w = 0#52 := by
  constructor
  · intro h
    simp only [isZero, Bool.or_eq_true, beq_iff_eq] at h
    rcases h with rfl | rfl <;> decide
  · rintro ⟨he, hf⟩
    have hbit : ∀ i < 63, w.getLsbD i = false := by
      intro i hi
      by_cases h : i < 52
      · have := congrArg (fun v => BitVec.getLsbD v i) hf
        simpa [f64Frac, h] using this
      · have := congrArg (fun v => BitVec.getLsbD v (i - 52)) he
        simp only [f64Exp, BitVec.getLsbD_extractLsb', BitVec.getLsbD_zero] at this
        rw [show 52 + (i - 52) = i by omega] at this
        simpa [show i - 52 < 11 by omega] using this
    cases hs : w.getLsbD 63 with
    | false =>
      have : w = 0x0000000000000000#64 := by
        apply BitVec.eq_of_getLsbD_eq
        intro i hi
        by_cases h : i < 63
        · rw [hbit i h]; simp
        · obtain rfl : i = 63 := by omega
          rw [hs]; rfl
      subst this; rfl
    | true =>
      have : w = 0x8000000000000000#64 := by
        apply BitVec.eq_of_getLsbD_eq
        intro i hi
        by_cases h : i < 63
        · rw [hbit i h]
          have : ∀ j : Fin 63, false = BitVec.getLsbD 0x8000000000000000#64 j.val := by decide
          exact this ⟨i, h⟩
        · obtain rfl : i = 63 := by omega
          rw [hs]; rfl
      subst this; rfl

theorem f64Significand_eq_zero_iff (w : Word) : f64Significand w = 0 ↔ isZero w = true := by
  rw [isZero_iff, f64Significand]
  split
  · rename_i h
    simp only [h, true_and]
    rw [← BitVec.toNat_inj]
    simp
  · rename_i h
    simp [h]

/-- A zero denotes 0. -/
theorem f64Value_of_isZero (w : Word) (h : isZero w = true) : f64Value w = 0 := by
  simp [f64Value, (f64Significand_eq_zero_iff w).2 h]

/-- A pattern with sign bit 0 denotes no negative number. -/
theorem f64Value_nonneg (w : Word) (h : f64Sign w = false) : 0 ≤ f64Value w := by
  have := f64Scale_pow_pos w
  rw [f64Value, if_neg (by simp [h]), one_mul]
  positivity

/-- The number a pattern denotes is positive exactly if its sign bit is 0 and it is no zero. -/
theorem f64Value_pos_iff (w : Word) : 0 < f64Value w ↔ f64Sign w = false ∧ isZero w = false := by
  have hp := f64Scale_pow_pos w
  cases hz : isZero w with
  | true => simp [f64Value_of_isZero w hz]
  | false =>
    have hs : 0 < f64Significand w := by
      rw [Nat.pos_iff_ne_zero]
      intro h
      rw [(f64Significand_eq_zero_iff w).1 h] at hz
      cases hz
    have hs' : (0 : ℚ) < (f64Significand w : ℚ) := by exact_mod_cast hs
    have := mul_pos hs' hp
    cases hsg : f64Sign w <;> simp [f64Value, hsg] <;> nlinarith

/-- A sample rate is valid exactly if it is finite and denotes a positive number (44_block_process.md R88). -/
theorem rateValid_iff (w : Word) : rateValid w = true ↔ isFinite w = true ∧ 0 < f64Value w := by
  rw [f64Value_pos_iff]
  simp only [rateValid, Bool.and_eq_true, Bool.not_eq_true']
  tauto

theorem freqRom_length : freqRom.length = 88 := by decide

/-- A FREQ word's number as an integer over 2^52, for comparisons that compute. -/
def freqScaled (k : Fin 88) : Nat := f64Significand (freq k) * 2 ^ (f64Scale (freq k) - 1023)

theorem f64Value_freq (k : Fin 88) : f64Value (freq k) = (freqScaled k : ℚ) / 2 ^ 52 := by
  have hk : ∀ k : Fin 88, f64Sign (freq k) = false ∧ 1023 ≤ f64Scale (freq k) := by decide
  obtain ⟨h1, h2⟩ := hk k
  unfold f64Value freqScaled
  rw [h1]
  generalize f64Scale (freq k) = e at *
  obtain ⟨d, rfl⟩ := Nat.exists_eq_add_of_le h2
  have he : (((1023 + d : ℕ) : ℤ) - 1075) = (d : ℤ) - (52 : ℕ) := by push_cast; ring
  rw [he, zpow_sub₀ (by norm_num), zpow_natCast, zpow_natCast]
  simp
  ring

end Sys2Proof.Machine
end

