-- ==== Sys2Proof/Laws/Block.lean ====
section
/-! SUPPORT. The completion step: what `validate` answers, what COMPLETE can do, and the properties R70 to R72 the constrained
magnitude function has by construction. -/

namespace Sys2Proof.Machine

/-! ### validate -/

theorem State.firstBadSample_eq_some (s : State) (i : Nat) : s.firstBadSample = some i ↔
    i < s.blockSize ∧ isFinite (s.sampleAt i) = false ∧ ∀ j < i, isFinite (s.sampleAt j) = true := by
  simp only [State.firstBadSample, List.find?_range_eq_some, List.mem_range, Bool.not_eq_true', Bool.not_not]
  tauto

theorem State.firstBadSample_eq_none (s : State) : s.firstBadSample = none ↔
    ∀ i < s.blockSize, isFinite (s.sampleAt i) = true := by
  simp [State.firstBadSample]

/-- The block is valid: every check of 44_block_process.md R88 passes. -/
theorem State.validate_none (s : State) : s.validate.1 = causeNone ↔
    2 ≤ s.blockSize ∧ s.blockSize ≤ s.nMax ∧ rateValid s.sampleRate = true ∧
      ∀ i < s.blockSize, isFinite (s.sampleAt i) = true := by
  rw [← State.firstBadSample_eq_none]
  unfold State.validate
  split
  · simp only [causeLenZero, causeNone]; constructor
    · intro h; exact absurd h (by decide)
    · omega
  · split
    · simp only [causeLenOne, causeNone]; constructor
      · intro h; exact absurd h (by decide)
      · omega
    · split
      · simp only [causeLenOver, causeNone]; constructor
        · intro h; exact absurd h (by decide)
        · omega
      · split
        · rename_i hr
          simp only [causeRateInvalid, causeNone]; constructor
          · intro h; exact absurd h (by decide)
          · rintro ⟨-, -, h, -⟩; simp [h] at hr
        · rename_i h0 h1 h2 hr
          split
          · rename_i i hi
            simp only [causeSampleNonfinite, causeNone, hi]; constructor
            · intro h; exact absurd h (by decide)
            · rintro ⟨-, -, -, h⟩; cases h
          · rename_i hi
            simp only [hi]
            exact ⟨fun _ => ⟨by omega, by omega, by simpa using hr, trivial⟩, fun _ => trivial⟩

/-- The causes `validate` gives, and the info that comes with each. -/
theorem State.validate_cases (s : State) :
    (s.validate = (causeNone, 0#64)) ∨ (s.validate = (causeLenZero, 0#64)) ∨ (s.validate = (causeLenOne, 0#64)) ∨
    (s.validate = (causeLenOver, 0#64)) ∨ (s.validate = (causeRateInvalid, 0#64)) ∨
    (∃ i, s.validate = (causeSampleNonfinite, BitVec.ofNat 64 i) ∧ i < s.blockSize ∧ s.blockSize ≤ s.nMax) := by
  unfold State.validate
  split
  · tauto
  · split
    · tauto
    · split
      · tauto
      · split
        · tauto
        · split
          · rename_i i hi
            exact .inr (.inr (.inr (.inr (.inr ⟨i, rfl, ((s.firstBadSample_eq_some i).1 hi).1, by omega⟩))))
          · tauto

/-! ### The magnitudes -/

theorem State.firstBadNote_eq_none (f : Config.MagFn) (s : State) : s.firstBadNote f = none ↔
    ∀ k, isFinite (s.magnitudeWith f k) = true := by
  simp [State.firstBadNote]

theorem State.firstBadNote_eq_some (f : Config.MagFn) (s : State) (k : Fin 88) (h : s.firstBadNote f = some k) :
    isFinite (s.magnitudeWith f k) = false := by
  have := List.find?_some h
  simpa using this

@[simp] theorem State.block_length (s : State) : s.block.length = s.blockSize := by simp [State.block]

theorem State.block_getD (s : State) (i : Nat) (hi : i < s.blockSize) : s.block.getD i 0#64 = s.sampleAt i := by
  simp [State.block, List.getD, hi]

/-- MAGNITUDE reads only the block's inputs (42_magnitude.md R70). -/
theorem State.magnitudeWith_congr (f : Config.MagFn) (s t : State) (hn : s.blockLen = t.blockLen)
    (hr : s.sampleRate = t.sampleRate) (hc : s.ctrl = t.ctrl) (hx : ∀ i < s.blockSize, s.sampleAt i = t.sampleAt i) :
    s.magnitudeWith f = t.magnitudeWith f := by
  have hb : s.block = t.block := by
    simp only [State.block, show t.blockSize = s.blockSize by simp only [State.blockSize, hn]]
    exact List.map_congr_left fun i hi => hx i (List.mem_range.1 hi)
  funext k
  simp only [State.magnitudeWith, State.blockSize, hb, hr, hc, hn]

theorem isFinite_clearSign (w : Word) : isFinite (w &&& 0x7FFFFFFFFFFFFFFF#64) = isFinite w := by
  have : f64Exp (w &&& 0x7FFFFFFFFFFFFFFF#64) = f64Exp w := by
    apply BitVec.eq_of_getLsbD_eq
    intro i hi
    simp only [f64Exp, BitVec.getLsbD_extractLsb', BitVec.getLsbD_and]
    interval_cases i <;> simp
  simp only [isFinite, this]

theorem f64Sign_clearSign (w : Word) : f64Sign (w &&& 0x7FFFFFFFFFFFFFFF#64) = false := by
  rw [f64Sign, BitVec.getLsbD_and, show BitVec.getLsbD 0x7FFFFFFFFFFFFFFF#64 63 = false from by decide, Bool.and_false]

theorem clearSign_of_sign (w : Word) (h : f64Sign w = false) : w &&& 0x7FFFFFFFFFFFFFFF#64 = w := by
  apply BitVec.eq_of_getLsbD_eq
  intro i hi
  rw [BitVec.getLsbD_and]
  have hm : BitVec.getLsbD 0x7FFFFFFFFFFFFFFF#64 i = decide (i < 63) := by
    have : ∀ j : Fin 64, BitVec.getLsbD 0x7FFFFFFFFFFFFFFF#64 j.val = decide (j.val < 63) := by decide
    exact this ⟨i, hi⟩
  rw [hm]
  by_cases h63 : i < 63
  · simp [h63]
  · obtain rfl : i = 63 := by omega
    rw [show BitVec.getLsbD w 63 = false from h]
    rfl

/-- The values R72 allows: `nonNegative` answers them, and leaves them alone. -/
theorem nonNegative_spec (w : Word) :
    isFinite (nonNegative w) = isFinite w ∧ (isFinite w = true → f64Sign (nonNegative w) = false) := by
  unfold nonNegative
  split
  · exact ⟨isFinite_clearSign w, fun _ => f64Sign_clearSign w⟩
  · rename_i h; exact ⟨rfl, fun h' => absurd h' h⟩

theorem nonNegative_of_allowed (w : Word) (h : isFinite w = true → f64Sign w = false) : nonNegative w = w := by
  unfold nonNegative
  split
  · rename_i hf; exact clearSign_of_sign w (h hf)
  · rfl

/-- R72: a constrained magnitude that is finite has sign bit 0. -/
theorem constrain_sign (f : Config.MagFn) (xs : List Word) (n : Nat) (r : Word) (en : Bool) (sel : BitVec 2) (k : Fin 88)
    (h : isFinite (constrain f xs n r en sel k) = true) : f64Sign (constrain f xs n r en sel k) = false := by
  unfold constrain at h ⊢
  split
  · rfl
  · rename_i hz
    rw [if_neg hz, (nonNegative_spec _).1] at h
    exact (nonNegative_spec _).2 h

/-- Nothing beyond R70, R71 and R72 is assumed of the magnitude function (R69): a function that has them is its own constrained
form. -/
theorem constrain_of_lawful (f : Config.MagFn)
    (h70 : ∀ xs n r en sel k, f xs n r en sel k = f (xs.take n) n r en (if en then sel else 0#2) k)
    (h71 : ∀ xs n r en sel k, (xs.take n).all isZero = true → f xs n r en sel k = 0#64)
    (h72 : ∀ xs n r en sel k, isFinite (f xs n r en sel k) = true → f64Sign (f xs n r en sel k) = false) :
    constrain f = f := by
  funext xs n r en sel k
  unfold constrain
  split
  · rename_i hz; exact (h71 _ _ _ _ _ _ hz).symm
  · rw [nonNegative_of_allowed _ (h72 _ _ _ _ _ _), ← h70]

/-! ### COMPLETE -/

/-- Everything COMPLETE can do (44_block_process.md R87, R89). -/
theorem State.completeWith_cases (f : Config.MagFn) (s : State) :
    (s.validate.1 ≠ causeNone ∧ s.completeWith f = s.takeInvalidBlock s.validate.1 s.validate.2) ∨
    (∃ k, s.validate.1 = causeNone ∧ s.firstBadNote f = some k ∧
      s.completeWith f = s.takeInvalidBlock causeResultNonfinite (BitVec.ofNat 64 k.val)) ∨
    (s.validate.1 = causeNone ∧ s.firstBadNote f = none ∧ s.completeWith f = s.commit (Vector.ofFn (s.magnitudeWith f))) := by
  unfold State.completeWith
  split
  · rename_i h; exact .inl ⟨h, rfl⟩
  · rename_i h
    have h : s.validate.1 = causeNone := not_not.1 h
    cases hb : s.firstBadNote f with
    | some k => exact .inr (.inl ⟨k, h, rfl, rfl⟩)
    | none => exact .inr (.inr ⟨h, rfl, rfl⟩)

theorem State.completeWith_invalid (f : Config.MagFn) (s : State) (c : BitVec 4) (info : Word) (hv : s.validate = (c, info))
    (hc : c ≠ causeNone) : s.completeWith f = s.takeInvalidBlock c info := by
  unfold State.completeWith
  rw [hv, if_pos hc]

theorem State.completeWith_badNote (f : Config.MagFn) (s : State) (k : Fin 88) (hv : s.validate.1 = causeNone)
    (hk : s.firstBadNote f = some k) : s.completeWith f = s.takeInvalidBlock causeResultNonfinite (BitVec.ofNat 64 k.val) := by
  unfold State.completeWith
  rw [if_neg (not_not.2 hv), hk]

theorem State.completeWith_commit (f : Config.MagFn) (s : State) (hv : s.validate.1 = causeNone)
    (hf : s.firstBadNote f = none) : s.completeWith f = s.commit (Vector.ofFn (s.magnitudeWith f)) := by
  unfold State.completeWith
  rw [if_neg (not_not.2 hv), hf]


theorem State.firstBadSample_congr (s t : State) (hn : s.blockLen = t.blockLen)
    (hx : ∀ i < s.blockSize, s.sampleAt i = t.sampleAt i) : s.firstBadSample = t.firstBadSample := by
  have hbs : t.blockSize = s.blockSize := by simp only [State.blockSize, hn]
  cases h : t.firstBadSample with
  | none =>
    rw [State.firstBadSample_eq_none] at h ⊢
    exact fun i hi => hx i hi ▸ h i (hbs ▸ hi)
  | some k =>
    rw [State.firstBadSample_eq_some] at h ⊢
    have hk : k < s.blockSize := hbs ▸ h.1
    exact ⟨hk, hx k hk ▸ h.2.1, fun j hj => hx j (by omega) ▸ h.2.2 j hj⟩

/-- What `validate` reads (R88): N_MAX, N, the rate and the first N samples. -/
theorem State.validate_congr (s t : State) (hN : s.nMax = t.nMax) (hn : s.blockLen = t.blockLen)
    (hr : s.sampleRate = t.sampleRate) (hx : ∀ i < s.blockSize, s.sampleAt i = t.sampleAt i) : s.validate = t.validate := by
  have hfirst := s.firstBadSample_congr t hn hx
  have hbs : s.blockSize = t.blockSize := by simp only [State.blockSize, hn]
  unfold State.validate
  rw [hfirst, hbs, hN, hr]
/-- A committed vector is legal (R90; 10_state.md R27). -/
theorem State.commit_vector_getElem (f : Config.MagFn) (s : State) (k : Fin 88) :
    (Vector.ofFn (s.magnitudeWith f))[k] = s.magnitudeWith f k := by
  simp

end Sys2Proof.Machine
end

