-- ==== Sys2Proof/Laws/Accuracy.lean ====
section
/-! SUPPORT. The named property R74 of 42_magnitude.md is not empty: some magnitude function has it, with the suggested TOL_ABS
(log 7). The function rounds the ideal magnitude down to a multiple of 2^-40. -/

namespace Sys2Proof.Machine

/-! ### Patterns made of fields -/

/-- A pattern made of its three fields (R10). -/
def f64OfFields (sign : Bool) (exp : Nat) (frac : Nat) : Word :=
  BitVec.ofBool sign ++ BitVec.ofNat 11 exp ++ BitVec.ofNat 52 frac

theorem f64Sign_ofFields (sg : Bool) (e m : Nat) : f64Sign (f64OfFields sg e m) = sg := by
  simp only [f64Sign, f64OfFields, BitVec.getLsbD_append]
  cases sg <;> simp

theorem f64Exp_ofFields (sg : Bool) (e m : Nat) : f64Exp (f64OfFields sg e m) = BitVec.ofNat 11 e := by
  apply BitVec.eq_of_getLsbD_eq
  intro i hi
  simp only [f64Exp, f64OfFields, BitVec.getLsbD_extractLsb', BitVec.getLsbD_append]
  rw [if_neg (by omega), if_pos (by omega)]
  simp [hi, show 52 + i - 52 = i by omega]

theorem f64Frac_ofFields (sg : Bool) (e m : Nat) : f64Frac (f64OfFields sg e m) = BitVec.ofNat 52 m := by
  apply BitVec.eq_of_getLsbD_eq
  intro i hi
  simp only [f64Frac, f64OfFields, BitVec.getLsbD_extractLsb', BitVec.getLsbD_append]
  rw [if_pos (by omega)]
  simp [hi]

/-- A normal pattern's number. -/
theorem toReal_ofFields (e m : Nat) (he : 0 < e) (he' : e < 2047) (hm : m < 2 ^ 52) :
    isFinite (f64OfFields false e m) = true ∧
    toReal (f64OfFields false e m) = ((2 ^ 52 + m : ℕ) : ℝ) * (2 : ℝ) ^ ((e : ℤ) - 1075) := by
  have hne : BitVec.ofNat 11 e ≠ 0#11 := by
    intro h; have := congrArg BitVec.toNat h; simp at this; omega
  have hnf : BitVec.ofNat 11 e ≠ 0x7FF#11 := by
    intro h; have := congrArg BitVec.toNat h; simp at this; omega
  have hme : m % 2 ^ 52 = m := Nat.mod_eq_of_lt hm
  have hee : e % 2 ^ 11 = e := Nat.mod_eq_of_lt (by omega)
  refine ⟨by simp [isFinite, f64Exp_ofFields, hnf], ?_⟩
  simp only [toReal, f64Value, f64Sign_ofFields, f64Significand, f64Scale, f64Exp_ofFields, f64Frac_ofFields, if_neg hne,
    BitVec.toNat_ofNat, hme, hee]
  push_cast
  simp

/-! ### A grid of patterns -/

/-- The pattern of m · 2^-40. -/
def gridWord (m : Nat) : Word :=
  if m = 0 then 0#64 else f64OfFields false (983 + Nat.log2 m) (m * 2 ^ (52 - Nat.log2 m) - 2 ^ 52)

theorem gridWord_spec (m : Nat) (hm : m < 2 ^ 53) :
    isFinite (gridWord m) = true ∧ f64Sign (gridWord m) = false ∧ toReal (gridWord m) = (m : ℝ) / 2 ^ 40 := by
  unfold gridWord
  split
  · rename_i h
    subst h
    refine ⟨by decide, by decide, ?_⟩
    have : f64Significand 0#64 = 0 := by decide
    simp [toReal, f64Value, this]
  · rename_i h
    have hl : Nat.log2 m < 53 := (Nat.log2_lt h).2 hm
    have h1 : 2 ^ Nat.log2 m ≤ m := Nat.log2_self_le h
    have h2 : m < 2 ^ (Nat.log2 m + 1) := Nat.lt_log2_self
    generalize Nat.log2 m = l at *
    have hp : 2 ^ l * 2 ^ (52 - l) = 2 ^ 52 := by rw [← pow_add]; congr 1; omega
    have hp0 : 0 < 2 ^ (52 - l) := by positivity
    have hlo : 2 ^ 52 ≤ m * 2 ^ (52 - l) := by rw [← hp]; exact Nat.mul_le_mul_right _ h1
    have hhi : m * 2 ^ (52 - l) < 2 ^ 53 := by
      calc m * 2 ^ (52 - l) < 2 ^ (l + 1) * 2 ^ (52 - l) := Nat.mul_lt_mul_of_pos_right h2 hp0
        _ = 2 ^ 53 := by rw [pow_succ]; rw [show 2 ^ l * 2 * 2 ^ (52 - l) = 2 * (2 ^ l * 2 ^ (52 - l)) by ring, hp]; norm_num
    obtain ⟨hf, hv⟩ := toReal_ofFields (983 + l) (m * 2 ^ (52 - l) - 2 ^ 52) (by omega) (by omega) (by omega)
    refine ⟨hf, f64Sign_ofFields _ _ _, ?_⟩
    rw [hv, Nat.add_sub_cancel' hlo]
    have he : (((983 + l : ℕ) : ℤ) - 1075) = -((40 : ℕ) : ℤ) - ((52 - l : ℕ) : ℤ) := by omega
    rw [he, zpow_sub₀ (by norm_num), zpow_neg, zpow_natCast, zpow_natCast]
    push_cast
    field_simp

/-- The ideal magnitude rounded down to the grid. -/
noncomputable def gridMagnitude : Config.MagFn := fun samples n rate winEn winSel k =>
  gridWord ⌊idealNote samples n rate winEn winSel k * 2 ^ 40⌋₊

theorem gridWord_floor (x : ℝ) (h0 : 0 ≤ x) (h1 : x ≤ 2) :
    isFinite (gridWord ⌊x * 2 ^ 40⌋₊) = true ∧ f64Sign (gridWord ⌊x * 2 ^ 40⌋₊) = false ∧
    |toReal (gridWord ⌊x * 2 ^ 40⌋₊) - x| ≤ 1 / 2 ^ 40 := by
  have hx : (0 : ℝ) ≤ x * 2 ^ 40 := by positivity
  have hlo := Nat.floor_le hx
  have hhi := Nat.lt_floor_add_one (x * 2 ^ 40)
  have hb : ⌊x * 2 ^ 40⌋₊ < 2 ^ 53 := by
    have : ((⌊x * 2 ^ 40⌋₊ : ℕ) : ℝ) < ((2 ^ 53 : ℕ) : ℝ) := by push_cast; nlinarith
    exact_mod_cast this
  obtain ⟨a, b, c⟩ := gridWord_spec _ hb
  refine ⟨a, b, ?_⟩
  rw [c]
  generalize ((⌊x * 2 ^ 40⌋₊ : ℕ) : ℝ) = q at hlo hhi
  rw [abs_le]
  constructor
  · rw [neg_le_sub_iff_le_add, ← sub_le_iff_le_add, le_div_iff₀ (by positivity)]
    have : (x - 1 / 2 ^ 40) * 2 ^ 40 = x * 2 ^ 40 - 1 := by ring
    linarith
  · rw [sub_le_iff_le_add, div_le_iff₀ (by positivity)]
    have : (1 / 2 ^ 40 + x) * 2 ^ 40 = x * 2 ^ 40 + 1 := by ring
    linarith

/-! ### The ideal magnitude of a block of the envelope -/

theorem windowCoeff_le_one (sel : BitVec 2) (n i : ℕ) (h : sel = 0#2 ∨ sel = 1#2) : |windowCoeff sel n i| ≤ 1 := by
  have h1 := Real.neg_one_le_cos (2 * Real.pi * i / ((n : ℝ) - 1))
  have h2 := Real.cos_le_one (2 * Real.pi * i / ((n : ℝ) - 1))
  unfold windowCoeff
  rw [abs_le]
  rcases h with rfl | rfl <;> simp only [windowAlpha, windowBeta] <;> norm_num <;> constructor <;> linarith

/-- A sum of n numbers of size at most 1, each times a cosine or a sine. -/
theorem abs_sum_le (x c : ℕ → ℝ) (n : ℕ) (hx : ∀ i < n, |x i| ≤ 1) (hc : ∀ i, |c i| ≤ 1) :
    |∑ i ∈ Finset.range n, x i * c i| ≤ n := by
  calc |∑ i ∈ Finset.range n, x i * c i| ≤ ∑ i ∈ Finset.range n, |x i * c i| := Finset.abs_sum_le_sum_abs _ _
    _ ≤ ∑ _i ∈ Finset.range n, (1 : ℝ) := Finset.sum_le_sum fun i hi => by
        rw [abs_mul]
        exact mul_le_one₀ (hx i (Finset.mem_range.1 hi)) (abs_nonneg _) (hc i)
    _ = n := by simp

/-- A coarse bound, enough for the grid. -/
theorem idealMagnitude_le_two (x : ℕ → ℝ) (n : ℕ) (r f : ℝ) (hn : 1 ≤ n) (hx : ∀ i < n, |x i| ≤ 1) :
    idealMagnitude x n r f ≤ 2 := by
  have hre : |sumRe x n r f| ≤ n := abs_sum_le _ _ _ hx fun i => Real.abs_cos_le_one _
  have him : |sumIm x n r f| ≤ n := abs_sum_le _ _ _ hx fun i => Real.abs_sin_le_one _
  have hn0 : (0 : ℝ) < n := by exact_mod_cast hn
  unfold idealMagnitude
  rw [div_le_iff₀ hn0]
  refine Real.sqrt_le_iff.2 ⟨by positivity, ?_⟩
  have h1 : sumRe x n r f ^ 2 ≤ (n : ℝ) ^ 2 := sq_le_sq' (by linarith [(abs_le.1 hre).1]) (abs_le.1 hre).2
  have h2 : sumIm x n r f ^ 2 ≤ (n : ℝ) ^ 2 := sq_le_sq' (by linarith [(abs_le.1 him).1]) (abs_le.1 him).2
  nlinarith

theorem toReal_of_isZero (w : Word) (h : isZero w = true) : toReal w = 0 := by
  simp [toReal, f64Value_of_isZero w h]

theorem idealMagnitude_zero_block (x : ℕ → ℝ) (n : ℕ) (r f : ℝ) (hx : ∀ i, x i = 0) : idealMagnitude x n r f = 0 := by
  simp [idealMagnitude, sumRe, sumIm, hx]

theorem idealMagnitude_nonneg (x : ℕ → ℝ) (n : ℕ) (r f : ℝ) : 0 ≤ idealMagnitude x n r f := by
  unfold idealMagnitude; positivity

/-- R74 with the suggested TOL_ABS is a property some magnitude function has. -/
theorem gridMagnitude_accurate (nMax : ℕ) (cyclesMax : ℝ) : Accurate nMax tolAbsSuggested cyclesMax gridMagnitude := by
  rintro samples n rate winEn sel k hsel ⟨⟨hn, -⟩, ⟨hlen, hs⟩, -, -⟩
  have htake : samples.take n = samples := by rw [← hlen, List.take_length]
  have htol : (0 : ℝ) ≤ tolAbsSuggested := by unfold tolAbsSuggested; positivity
  have hrel : (0 : ℝ) ≤ tolRel := by unfold tolRel; positivity
  have h0 : 0 ≤ idealNote samples n rate winEn sel k := idealMagnitude_nonneg _ _ _ _
  unfold constrain
  rw [htake]
  split
  · rename_i hz
    have hx : ∀ i, workingBlock winEn sel samples n i = 0 := by
      intro i
      have : toReal (samples.getD i 0#64) = 0 := by
        apply toReal_of_isZero
        rw [List.getD_eq_getElem?_getD]
        cases hg : samples[i]? with
        | none => rfl
        | some w => exact List.all_eq_true.1 hz w (List.mem_of_getElem? hg)
      unfold workingBlock
      rw [this]; simp
    have hm : idealNote samples n rate winEn sel k = 0 := idealMagnitude_zero_block _ _ _ _ hx
    rw [hm, show toReal 0#64 = 0 from toReal_of_isZero _ rfl]
    refine ⟨by decide, by simpa using htol⟩
  · have hsame : gridMagnitude samples n rate winEn (if winEn then sel else 0#2) k
        = gridWord ⌊idealNote samples n rate winEn sel k * 2 ^ 40⌋₊ := by
      cases winEn
      · rfl
      · rfl
    have h2 : idealNote samples n rate winEn sel k ≤ 2 := by
      refine idealMagnitude_le_two _ _ _ _ (by omega) fun i hi => ?_
      have hi' : i < samples.length := by omega
      have hw : |toReal (samples.getD i 0#64)| ≤ 1 := by
        rw [List.getD_eq_getElem _ _ hi']
        exact (hs _ (List.getElem_mem hi')).2
      unfold workingBlock
      split
      · rw [abs_mul]
        exact mul_le_one₀ hw (abs_nonneg _) (windowCoeff_le_one sel n i hsel)
      · exact hw
    obtain ⟨hf, hsg, ha⟩ := gridWord_floor _ h0 h2
    rw [hsame, nonNegative_of_allowed _ fun _ => hsg]
    refine ⟨hf, ha.trans ?_⟩
    have : (1 : ℝ) / 2 ^ 40 ≤ tolAbsSuggested := by unfold tolAbsSuggested; norm_num
    nlinarith [mul_nonneg hrel h0]

end Sys2Proof.Machine
end

