-- ==== Sys2Proof/Laws/Flags.lean ====
section
/-! SUPPORT. The bits of CTRL and STATUS on the bus, one by one (10_state.md R19, R20). -/

namespace Sys2Proof.Machine

theorem Ctrl.pack_getLsbD (c : Ctrl) (i : Nat) : c.pack.getLsbD i =
    if i = 0 then c.winEn else if i = 1 then c.winSel.getLsbD 0 else if i = 2 then c.winSel.getLsbD 1
    else if i = 3 then c.irqEn else false := by
  by_cases h : i < 4
  · simp only [Ctrl.pack, BitVec.getLsbD_append]
    interval_cases i <;> first | rfl | simp
  · simp only [Ctrl.pack, BitVec.getLsbD_append]
    repeat rw [if_neg (by omega)]
    simp

theorem Status.pack_getLsbD (t : Status) (i : Nat) : t.pack.getLsbD i =
    if i = 0 then t.busy else if i = 1 then t.done else if i = 2 then t.err else if i = 3 then false
    else if i < 8 then t.errCause.getLsbD (i - 4) else if i = 8 then t.overrun else if i = 9 then t.wrBusy
    else if i = 10 then t.badCmd else if i = 11 then t.badAccess else false := by
  by_cases h : i < 12
  · simp only [Status.pack, BitVec.getLsbD_append]
    interval_cases i <;> first | rfl | simp
  · simp only [Status.pack, BitVec.getLsbD_append]
    repeat rw [if_neg (by omega)]
    simp

/-- WIN_SEL keeps a legal value (write-any-read-legal). -/
theorem winSelWrite_legal (old v : BitVec 2) (h : old = 0#2 ∨ old = 1#2) :
    winSelWrite old v = 0#2 ∨ winSelWrite old v = 1#2 := by
  unfold winSelWrite
  split
  · assumption
  · exact h

end Sys2Proof.Machine
end

