-- ==== Sys2Proof/Laws/PerInstr.lean ====
section
/-! SUPPORT. The per-instruction family `EncodesItsRow`: the words the encoder makes of an instruction match the fixed bits of its
row of spec/opcode_table.json. -/

namespace Sys2Proof.Laws.EncodesItsRow

/-- The match and the mask of an instruction's row. A BUS row fixes bits of the descriptor; a CMD row fixes the write data, which
travels in an aligned 8-byte write to CMD. -/
def Statement : Instr → Prop
  | .busRead a sz => (encode (.busRead a sz)).descriptor &&& 0x000000F9#32 = 0x00000000#32
  | .busWrite a sz w =>
    (encode (.busWrite a sz w)).descriptor &&& 0x000000F9#32 = 0x00000001#32 ∧ (encode (.busWrite a sz w)).wdata = w
  | .nop => encode .nop = ⟨0x00002007#32, 0x0000000000000000#64⟩
  | .start => encode .start = ⟨0x00002007#32, 0x0000000000000001#64⟩
  | .clearStatus => encode .clearStatus = ⟨0x00002007#32, 0x0000000000000002#64⟩

theorem fixed_bits (a : BitVec 24) (sz : BitVec 2) (we : BitVec 1) :
    descriptorOf a sz we &&& 0x000000F9#32 = we.setWidth 32 := by
  apply BitVec.eq_of_getLsbD_eq
  intro i hi
  rw [BitVec.getLsbD_and, descriptorOf_getLsbD _ _ _ _ hi, BitVec.getLsbD_setWidth]
  have hm : ∀ j : Fin 32, BitVec.getLsbD 0x000000F9#32 j.val = decide (j.val = 0 ∨ (3 ≤ j.val ∧ j.val < 8)) := by decide
  have := hm ⟨i, hi⟩
  simp only at this
  rw [this]
  split
  · rename_i h; simp [show i = 0 by omega]
  · rename_i h
    rw [BitVec.getLsbD_of_ge we i (by omega)]
    split
    · rename_i h3; simp [show ¬(i = 0 ∨ (3 ≤ i ∧ i < 8)) by omega]
    · split
      · simp
      · rename_i h8; simp [show ¬(i = 0 ∨ (3 ≤ i ∧ i < 8)) by omega]

theorem busRead (a : BitVec 24) (sz : BitVec 2) : Statement (.busRead a sz) := fixed_bits a sz 0#1
theorem busWrite (a : BitVec 24) (sz : BitVec 2) (w : Word) : Statement (.busWrite a sz w) := ⟨fixed_bits a sz 1#1, rfl⟩
theorem nop : Statement .nop := rfl
theorem start : Statement .start := rfl
theorem clearStatus : Statement .clearStatus := rfl

end Sys2Proof.Laws.EncodesItsRow
end

