-- ==== Sys2Proof/Laws/Step.lean ====
section
/-! SUPPORT. Everything one step can do, said once: the four kinds of events of 20_memory.md R39. -/

namespace Sys2Proof.Machine

/-- The inversion of `step`. -/
theorem step_cases (s t : State) (h : step s = .next t) :
    (s.order = [] ∧ t = s.coreTurn) ∨
    (∃ rest, s.order = .core :: rest ∧ t = (s.setOrder rest).coreTurn) ∨
    (∃ rest, s.order = .reset :: rest ∧ t = (s.setOrder rest).resetEvent) ∨
    (∃ r rest i, s.order = .access r :: rest ∧ decode r = .ok i ∧ BusEffect (s.setOrder rest) t) := by
  unfold step at h
  split at h
  · rename_i ho; cases h; exact .inl ⟨ho, rfl⟩
  · rename_i r rest ho
    split at h
    · rename_i i hi; exact .inr (.inr (.inr ⟨r, rest, i, ho, hi, exec_cases i _ t h⟩))
    · cases h
  · rename_i rest ho; cases h; exact .inr (.inl ⟨rest, ho, rfl⟩)
  · rename_i rest ho; cases h; exact .inr (.inr (.inl ⟨rest, ho, rfl⟩))

/-- The inversion of `step` with the instruction kept: the core's turn, a reset, or one decoded access. -/
theorem step_exec (s t : State) (h : step s = .next t) :
    (s.coreNext = true ∧ t = (s.setOrder s.order.tail).coreTurn) ∨
    (∃ rest, s.order = .reset :: rest ∧ t = (s.setOrder rest).resetEvent) ∨
    (∃ r rest i, s.order = .access r :: rest ∧ decode r = .ok i ∧ exec i (s.setOrder rest) = .next t) := by
  unfold step at h
  split at h
  · rename_i ho
    cases h
    refine .inl ⟨by simp [State.coreNext, ho], ?_⟩
    have : s.setOrder s.order.tail = s := by rw [ho, List.tail_nil, ← ho]; rfl
    rw [this]
  · rename_i r rest ho
    split at h
    · rename_i i hi; exact .inr (.inr ⟨r, rest, i, ho, hi, h⟩)
    · cases h
  · rename_i rest ho; cases h; exact .inl ⟨by simp [State.coreNext, ho], by rw [ho]; rfl⟩
  · rename_i rest ho; cases h; exact .inr (.inl ⟨rest, ho, rfl⟩)

theorem State.coreTurn_idle (s : State) (h : s.status.busy = false) : s.coreTurn = s := by simp [State.coreTurn, h]

theorem State.coreTurn_busy (s : State) (h : s.status.busy = true) : s.coreTurn = s.complete := by simp [State.coreTurn, h]

/-- Everything the core's turn can do (44_block_process.md R87; R116). -/
theorem State.coreTurn_cases (s : State) :
    (s.coreTurn = s ∧ s.status.busy = false) ∨
    (s.status.busy = true ∧ ∃ c info, s.coreTurn = s.takeInvalidBlock c info ∧
      (s.validate.1 ≠ causeNone ∨ ∃ k, s.firstBadNote Config.rawMagnitude = some k)) ∨
    (s.status.busy = true ∧ s.validate.1 = causeNone ∧ s.firstBadNote Config.rawMagnitude = none ∧
      s.coreTurn = s.commit (Vector.ofFn (s.magnitudeWith Config.rawMagnitude))) := by
  cases hb : s.status.busy with
  | false => exact .inl ⟨s.coreTurn_idle hb, rfl⟩
  | true =>
    rw [s.coreTurn_busy hb, State.complete]
    rcases s.completeWith_cases Config.rawMagnitude with ⟨h1, h⟩ | ⟨k, -, h1, h⟩ | ⟨h1, h2, h⟩
    · exact .inr (.inl ⟨rfl, _, _, h, .inl h1⟩)
    · exact .inr (.inl ⟨rfl, _, _, h, .inr ⟨k, h1⟩⟩)
    · exact .inr (.inr ⟨rfl, h1, h2, h⟩)

theorem step_empty (s : State) (h : s.order = []) : step s = .next s.coreTurn := by simp [step, h]

theorem step_core (s : State) (rest : List Event) (h : s.order = .core :: rest) :
    step s = .next (s.setOrder rest).coreTurn := by simp [step, h]

theorem step_reset (s : State) (rest : List Event) (h : s.order = .reset :: rest) :
    step s = .next (s.setOrder rest).resetEvent := by simp [step, h]

/-- A run takes its first step first. -/
theorem run_succ (n : Nat) (s t : State) (h : step s = .next t) :
    Host.Core.run Sys2Proof.core (n + 1) s = Host.Core.run Sys2Proof.core n t := by
  have hs : Sys2Proof.core.step s = .next t := h
  simp only [Host.Core.run, hs]

theorem decode_total (r : Request) (h : descReserved r.descriptor = 0#5) : ∃ i, decode r = .ok i := by
  unfold decode
  rw [if_neg (not_not.2 h)]
  split
  · exact ⟨_, rfl⟩
  · exact ⟨_, rfl⟩

theorem decode_refused (r : Request) (h : descReserved r.descriptor ≠ 0#5) : decode r = .error .reservedField := by
  simp [decode, h]

/-- The rest of the order is what a step leaves of it. -/
theorem BusEffect.order_eq {s t : State} (h : BusEffect s t) : t.order = s.order := by
  cases h <;> rfl

theorem State.completeWith_order (f : Config.MagFn) (s : State) : (s.completeWith f).order = s.order := by
  rcases s.completeWith_cases f with ⟨-, h⟩ | ⟨k, -, -, h⟩ | ⟨-, -, h⟩ <;>
    simp only [h, State.takeInvalidBlock_order, State.commit_order]

end Sys2Proof.Machine
end

