-- ==== Sys2Proof/Tests/Slice0.lean ====
section
/-! SUPPORT. The model's own tests. Expected results are those of spec/95_test_vectors.md (each named) or of the rules; the last part
holds, for every statement with hypotheses, a state and operands that meet them. -/

namespace Sys2Proof.Tests

open Sys2Proof.Machine

/-! ### Builders -/

/-- One step on the request with the given words. -/
def bus (d : BitVec 32) (w : Word) (s : State) : Host.Outcome State Fault Refusal := step { s with order := [.access ⟨d, w⟩] }

/-- One property of the next state. -/
def holds (o : Host.Outcome State Fault Refusal) (p : State → Bool) : Bool :=
  match o with
  | .next t => p t
  | .fault _ => false
  | .refused _ => false

/-- RDATA and STATUS after an access. -/
def reads (o : Host.Outcome State Fault Refusal) (rdata status : Word) : Bool :=
  holds o fun t => t.rdata == rdata && t.status.pack == status

/-- A BUSY core, nothing else set. -/
def busyCore : State := { State.reset with status := { Status.reset with busy := true } }

/-- A core with samples in SAMPLE[0..4), a length and a rate. -/
def loaded (n : BitVec 32) (rate s0 s1 s2 s3 : Word) : State :=
  ((((({ State.reset with blockLen := n, sampleRate := rate } : State).writeSample 0 s0).writeSample 1 s1).writeSample 2 s2).writeSample 3 s3)

/-- The block of vector V-M1, cut to four samples: zeros of both signs, at 48000.0. -/
def zeroBlock : State :=
  loaded 4#32 0x40E7700000000000#64 0#64 0#64 0#64 0x8000000000000000#64

def busy (s : State) : State := { s with status := { s.status with busy := true } }

/-! ### Well-formedness and decoding -/

theorem test_wellFormed_refuses :
    (Instr.busWrite 0x000020#24 3#2 0x0#64).wellFormed = false ∧ (Instr.busWrite 0x000020#24 3#2 0x1#64).wellFormed = false ∧
    (Instr.busWrite 0x000020#24 3#2 0x2#64).wellFormed = false := by decide

theorem test_wellFormed_accepts :
    (Instr.busWrite 0x000020#24 3#2 0x3#64).wellFormed = true ∧ (Instr.busWrite 0x000020#24 2#2 0x1#64).wellFormed = true ∧
    (Instr.busWrite 0x000028#24 3#2 0x1#64).wellFormed = true ∧ (Instr.busRead 0xFFFFFF#24 0#2).wellFormed = true ∧
    Instr.nop.wellFormed = true ∧ Instr.start.wellFormed = true ∧ Instr.clearStatus.wellFormed = true := by decide

/-- The descriptor table of 95_test_vectors.md. -/
theorem test_decode_busRead :
    decode ⟨0x00000006#32, 0#64⟩ = .ok (.busRead 0x000000#24 3#2) ∧ decode ⟨0x00000806#32, 0#64⟩ = .ok (.busRead 0x000008#24 3#2) ∧
    decode ⟨0x0012B806#32, 0#64⟩ = .ok (.busRead 0x0012B8#24 3#2) ∧ decode ⟨0x00218006#32, 0#64⟩ = .ok (.busRead 0x002180#24 3#2) ∧
    decode ⟨0x00000000#32, 0#64⟩ = .ok (.busRead 0x000000#24 0#2) ∧ decode ⟨0xFFFFFF02#32, 0#64⟩ = .ok (.busRead 0xFFFFFF#24 1#2) := by
  decide

theorem test_decode_busWrite :
    decode ⟨0x00001007#32, 0x9#64⟩ = .ok (.busWrite 0x000010#24 3#2 0x9#64) ∧
    decode ⟨0x01000807#32, 0xBFF0000000000000#64⟩ = .ok (.busWrite 0x010008#24 3#2 0xBFF0000000000000#64) ∧
    decode ⟨0x00001005#32, 0x0#64⟩ = .ok (.busWrite 0x000010#24 2#2 0x0#64) ∧
    decode ⟨0x00002007#32, 0x101#64⟩ = .ok (.busWrite 0x000020#24 3#2 0x101#64) := by decide

theorem test_decode_nop : decode ⟨0x00002007#32, 0x0000000000000000#64⟩ = .ok .nop := by decide
theorem test_decode_start : decode ⟨0x00002007#32, 0x0000000000000001#64⟩ = .ok .start := by decide
theorem test_decode_clearStatus : decode ⟨0x00002007#32, 0x0000000000000002#64⟩ = .ok .clearStatus := by decide

/-- V-B17, and each reserved bit by itself. -/
theorem test_decode_refuses :
    decode ⟨0x0000000E#32, 0#64⟩ = .error .reservedField ∧ decode ⟨0x00000016#32, 0#64⟩ = .error .reservedField ∧
    decode ⟨0x00000026#32, 0#64⟩ = .error .reservedField ∧ decode ⟨0x00000046#32, 0#64⟩ = .error .reservedField ∧
    decode ⟨0x00002087#32, 1#64⟩ = .error .reservedField := by decide

theorem test_encode :
    encode (.busRead 0x002180#24 3#2) = ⟨0x00218006#32, 0#64⟩ ∧
    encode (.busWrite 0x010000#24 3#2 0x3FF0000000000000#64) = ⟨0x01000007#32, 0x3FF0000000000000#64⟩ ∧
    encode .nop = ⟨0x00002007#32, 0#64⟩ ∧ encode .start = ⟨0x00002007#32, 1#64⟩ ∧ encode .clearStatus = ⟨0x00002007#32, 2#64⟩ := by
  decide

/-- The rows of opcode_table.json. -/
theorem test_decodeTableWord :
    decodeTableWord 32 0x00000000 = some (.busRead 0#24 0#2) ∧ decodeTableWord 32 0x00000001 = some (.busWrite 0#24 0#2 0#64) ∧
    decodeTableWord 64 0 = some .nop ∧ decodeTableWord 64 1 = some .start ∧ decodeTableWord 64 2 = some .clearStatus ∧
    decodeTableWord 64 3 = some (.busWrite 0x000020#24 3#2 3#64) ∧ decodeTableWord 32 0x0000000E = none := by decide

/-- The request is the very next event, and the step runs it. -/
theorem test_withFetchWord :
    holds (step (State.reset.withFetchWord 64 1)) (fun t => t.status.pack == 0x1#64) = true ∧
    reads (step (State.reset.withFetchWord 32 0x00000006)) 0x4348524F4D460001#64 0#64 = true := by decide

/-! ### BUS_READ -/

/-- V-B1, V-B2, V-B9, V-F3, V-F4, V-F5, V-F6. -/
theorem test_busRead_defined :
    reads (bus 0x00000006#32 0#64 State.reset) 0x4348524F4D460001#64 0#64 = true ∧
    reads (bus 0x00000806#32 0#64 State.reset) 0x0000015800001000#64 0#64 = true ∧
    reads (bus 0x00002006#32 0#64 State.reset) 0#64 0#64 = true ∧
    reads (bus 0x00206006#32 0#64 State.reset) 0x404B800000000000#64 0#64 = true ∧
    reads (bus 0x00213806#32 0#64 State.reset) 0x40705A0250C2B956#64 0#64 = true ∧
    reads (bus 0x00218006#32 0#64 State.reset) 0x407B800000000000#64 0#64 = true ∧
    reads (bus 0x0022B806#32 0#64 State.reset) 0x40B05A0250C2B956#64 0#64 = true := by decide

/-- V-B3 to V-B8, V-F8. -/
theorem test_busRead_undefined :
    ([0x00000406#32, 0x00000004#32, 0x00000000#32, 0x00004806#32, 0x0012C006#32, 0x01800006#32, 0x0022C006#32].all
      fun d => reads (bus d 0#64 { State.reset with rdata := 5#64 }) 0#64 0x800#64) = true := by decide

/-! ### BUS_WRITE -/

/-- V-W8, V-W9, V-W10, V-E17, V-E18, V-B10 to V-B13, V-B18, V-B20. -/
theorem test_busWrite_idle :
    holds (bus 0x00001007#32 0x7#64 { State.reset with ctrl := ⟨true, 1#2, false⟩ }) (fun t => t.ctrl.pack == 0x3#64) = true ∧
    holds (bus 0x00001007#32 0x5#64 { State.reset with ctrl := ⟨false, 0#2, false⟩ }) (fun t => t.ctrl.pack == 0x1#64) = true ∧
    holds (bus 0x00001007#32 0xFFFFFFFFFFFFFFF3#64 State.reset) (fun t => t.ctrl.pack == 0x3#64 && t.status.pack == 0#64) = true ∧
    holds (bus 0x00003007#32 0x8000000000000000#64 State.reset) (fun t => t.sampleRate == 0x8000000000000000#64) = true ∧
    holds (bus 0x00002807#32 0x0000000100000004#64 State.reset) (fun t => t.blockLen == 4#32) = true ∧
    holds (bus 0x01001007#32 0x7FF8000000000000#64 State.reset) (fun t => t.sampleAt 2 == 0x7FF8000000000000#64) = true ∧
    ([0x00100007#32, 0x00001807#32, 0x00000007#32, 0x00003807#32, 0x00002005#32, 0x00000C07#32, 0x00200007#32].all
      fun d => holds (bus d 0x1#64 State.reset) fun t => t == { State.reset with status := t.status } && t.status.pack == 0x800#64) = true := by
  decide

/-- V-B14, V-B15, V-B20, V-B22, V-I9. -/
theorem test_busWrite_flags :
    holds (bus 0x00002007#32 0x101#64 State.reset) (fun t => t.status.pack == 0x400#64) = true ∧
    holds (bus 0x00002007#32 0x3#64 State.reset) (fun t => t.status.pack == 0x400#64) = true ∧
    holds (bus 0x00001005#32 0x0#64 busyCore) (fun t => t.status.pack == 0x801#64) = true ∧
    ([0x01000007#32, 0x00002807#32, 0x00003007#32, 0x00001007#32].all fun d => holds (bus d 0x8#64 busyCore) fun t =>
      t == { State.reset with status := t.status } && t.status.pack == 0x201#64) = true := by decide

/-! ### The commands -/

/-- V-B16. -/
theorem test_nop : bus 0x00002007#32 0#64 busyCore = .next busyCore ∧ exec .nop State.reset = .next State.reset := by
  exact ⟨rfl, rfl⟩

/-- V-E20: from STATUS 0x54 and ERR_INFO 2; V-I4: from DONE with IRQ_EN. -/
theorem test_start_idle :
    holds (bus 0x00002007#32 1#64 { State.reset with status := { Status.reset with err := true, errCause := 5#4 }, errInfo := 2#64 })
      (fun t => t.status.pack == 0x1#64 && t.errInfo == 0#64) = true ∧
    holds (bus 0x00002007#32 1#64 { State.reset with status := { Status.reset with done := true }, ctrl := ⟨true, 0#2, true⟩ })
      (fun t => t.status.pack == 0x1#64 && !t.irq) = true := by decide

/-- Program P4: a START while BUSY sets OVERRUN. -/
theorem test_start_busy : holds (bus 0x00002007#32 1#64 busyCore) (fun t => t.status.pack == 0x101#64) = true := by decide

/-- V-I1, V-I2. -/
theorem test_clearStatus :
    holds (bus 0x00002007#32 2#64 { State.reset with
        status := { Status.reset with err := true, errCause := 5#4, overrun := true, badAccess := true }, errInfo := 2#64 })
      (fun t => t.status.pack == 0#64 && t.errInfo == 0#64) = true ∧
    holds (bus 0x00002007#32 2#64 { busyCore with status := { busyCore.status with overrun := true, wrBusy := true } })
      (fun t => t.status.pack == 0x1#64) = true := by decide

/-! ### The core's step and reset -/

/-- V-E1, V-E2, V-E3, V-E5 to V-E9, V-E12 to V-E16: the end of the block, its STATUS and ERR_INFO 0. -/
theorem test_complete_invalid :
    ([(0#32, 0x40E5888000000000#64, 0x14#64), (1#32, 0x40E5888000000000#64, 0x24#64), (4097#32, 0x40E5888000000000#64, 0x34#64),
      (4#32, 0x0000000000000000#64, 0x44#64), (4#32, 0x8000000000000000#64, 0x44#64), (4#32, 0xBFF0000000000000#64, 0x44#64),
      (4#32, 0x7FF8000000000000#64, 0x44#64), (4#32, 0x7FF0000000000000#64, 0x44#64), (0#32, 0x7FF8000000000000#64, 0x14#64),
      (1#32, 0xBFF0000000000000#64, 0x24#64), (4097#32, 0x0000000000000000#64, 0x34#64),
      (0xFFFFFFFF#32, 0x40E5888000000000#64, 0x34#64)].all
      fun x => holds (step { busyCore with blockLen := x.1, sampleRate := x.2.1 }) fun t =>
        t.status.pack == x.2.2 && t.errInfo == 0#64 && t.resultSeq == 0#64) = true := by decide

/-- V-E10, with the NaN at index 2 of 4: SAMPLE_NONFINITE and the lowest index. -/
theorem test_complete_nonfinite_sample :
    holds (step (busy (loaded 4#32 0x40E7700000000000#64 0#64 0#64 0x7FF8000000000000#64 0x7FF0000000000000#64)))
      (fun t => t.status.pack == 0x54#64 && t.errInfo == 2#64) = true := by decide

/-- V-RS1. -/
theorem test_reset :
    holds (step { busyCore with order := [.reset], resultSeq := 3#64, errInfo := 1#64, blockLen := 4#32, ctrl := ⟨false, 1#2, true⟩ })
      (fun t => t == { State.reset with epoch := 1 }) = true := by decide

/-- T3: MIDI note numbers. -/
theorem test_midiNote : midiNote 0 = 21 ∧ midiNote 87 = 108 := by decide

/-- The pattern table of 95_test_vectors.md, and V-F6. -/
theorem test_f64Literal :
    f64Literal false 0 1 = 0#64 ∧ f64Literal true 0 1 = 0x8000000000000000#64 ∧ f64Literal false 1 1 = 0x3FF0000000000000#64 ∧
    f64Literal true 1 1 = 0xBFF0000000000000#64 ∧ f64Literal false 5 10 = 0x3FE0000000000000#64 ∧
    f64Literal false 2 1 = 0x4000000000000000#64 ∧ f64Literal false 275 10 = 0x403B800000000000#64 ∧
    f64Literal false 44100 1 = 0x40E5888000000000#64 ∧ f64Literal false 48000 1 = 0x40E7700000000000#64 ∧
    f64Literal false 4186009044809578 (10 ^ 12) = freq 87 := by decide

/-! ### Witnesses: every statement's hypotheses are met -/

theorem zeroBlock_sampleAt : (∀ i < 4, zeroBlock.sampleAt i = 0x0000000000000000#64 ∨ zeroBlock.sampleAt i = 0x8000000000000000#64) := by
  decide

theorem zeroBlock_valid : zeroBlock.validate = (0#4, 0#64) := by decide

/-- Every magnitude of an all-zero block is +0.0 (42_magnitude.md R71), whatever the free function is. -/
theorem zero_magnitude (s : State) (f : Config.MagFn) (k : Fin 88) (h : (s.block.take s.blockSize).all isZero = true) :
    s.magnitudeWith f k = 0#64 := by
  unfold State.magnitudeWith constrain
  rw [if_pos h]

theorem zeroBlock_zeros : (zeroBlock.block.take zeroBlock.blockSize).all isZero = true := by decide

/-- The block [1, 0, −1, 0] of vector V-M2a. -/
def cosineBlock : State :=
  loaded 4#32 0x405B800000000000#64 0x3FF0000000000000#64 0#64 0xBFF0000000000000#64 0#64

/-- A magnitude function with no finite value. -/
def nanFn : Config.MagFn := fun _ _ _ _ _ _ => 0x7FF8000000000000#64

theorem nanFn_magnitude (k : Fin 88) : cosineBlock.magnitudeWith nanFn k = 0x7FF8000000000000#64 := by
  have h : (cosineBlock.block.take cosineBlock.blockSize).all isZero = false := by decide
  unfold State.magnitudeWith constrain
  rw [if_neg (by rw [h]; decide)]
  show nonNegative 0x7FF8000000000000#64 = _
  decide

theorem witness_DecodeOfEncode : (Instr.busRead 0x010000#24 3#2).wellFormed = true ∧
    (Instr.busWrite 0x000020#24 3#2 3#64).wellFormed = true ∧ Instr.start.wellFormed = true := by decide

theorem witness_EncodeOfDecode : decode ⟨0x00218006#32, 7#64⟩ = .ok (.busRead 0x002180#24 3#2) ∧
    decode ⟨0x00002007#32, 1#64⟩ = .ok .start := by decide

theorem witness_DescriptorFields : (0x0000000E#32 : BitVec 32).extractLsb' 3 5 ≠ 0#5 ∧
    ((0x00218006#32 : BitVec 32).extractLsb' 3 5 = 0#5 ∧ (0x00218006#32 : BitVec 32).getLsbD 0 = false) ∧
    ((0x00002007#32 : BitVec 32).extractLsb' 3 5 = 0#5 ∧ (0x00002007#32 : BitVec 32).getLsbD 0 = true) := by decide

theorem witness_StepRuns : State.order { State.reset with order := [.access ⟨0x00002007#32, 1#64⟩, .core] } =
    .access ⟨0x00002007#32, 1#64⟩ :: [.core] ∧ decode ⟨0x00002007#32, 1#64⟩ = .ok .start := by decide

theorem witness_CoreTurn :
    (State.order { busyCore with order := [.core] } = .core :: [] ∧ busyCore.status.busy = true) ∧
    (State.order { State.reset with order := [.core] } = .core :: [] ∧ State.reset.status.busy = false) ∧
    (busyCore.order = [] ∧ busyCore.status.busy = true) ∧ (State.reset.order = [] ∧ State.reset.status.busy = false) := by decide

/-- Both outcomes occur. -/
theorem witness_OnlyAnIllFormed :
    (∃ t, step State.reset = .next t) ∧
    step { State.reset with order := [.access ⟨0x0000000E#32, 0#64⟩] } = .refused .illFormedRequest := ⟨⟨_, rfl⟩, rfl⟩

/-- N_MAX at both ends of its range and at the suggested value. -/
theorem witness_NMaxLegal : Config.NMaxLegal 2 ∧ Config.NMaxLegal 4096 ∧ Config.NMaxLegal (2 ^ 20) ∧
    ¬Config.NMaxLegal 1 ∧ ¬Config.NMaxLegal (2 ^ 20 + 1) := by decide

theorem witness_Caps : Config.NMaxLegal State.reset.nMax ∧ State.reset.nMax = 4096 ∧ ∃ t, step State.reset = .next t :=
  ⟨by decide, rfl, _, rfl⟩

/-- IDLE and BUSY states, for the statements about CTRL, BLOCK_LEN, SAMPLE_RATE, START and the protected registers. -/
theorem witness_idle_and_busy : State.reset.status.busy = false ∧ busyCore.status.busy = true ∧
    Config.NMaxLegal busyCore.nMax := by decide

theorem witness_SampleRate : State.sampleRate { State.reset with blockLen := 2#32 } = State.reset.sampleRate ∧
    2 ≤ (2#32 : BitVec 32).toNat ∧ (2#32 : BitVec 32).toNat ≤ State.reset.nMax := by decide

theorem witness_Cmd : (0x101#64 : Word) ≠ 0#64 ∧ (0x101#64 : Word) ≠ 1#64 ∧ (0x101#64 : Word) ≠ 2#64 := by decide

/-- The first and the last sample. -/
theorem witness_Sample : Config.NMaxLegal State.reset.nMax ∧ 0 < State.reset.nMax ∧ 4095 < State.reset.nMax ∧
    State.reset.status.busy = false ∧ busyCore.status.busy = true := by decide

/-- An aligned address, lane 7, and the first and last byte of the SAMPLE window. -/
theorem witness_LittleEndian : (0x001008#24 : BitVec 24).toNat % 8 = 0 ∧ 7 < 8 ∧
    (0x10000 ≤ (0x010000#24 : BitVec 24).toNat ∧ (0x010000#24 : BitVec 24).toNat < 0x10000 + 8 * State.reset.nMax) ∧
    (0x10000 ≤ (0x017FFF#24 : BitVec 24).toNat ∧ (0x017FFF#24 : BitVec 24).toNat < 0x10000 + 8 * State.reset.nMax) := by decide

/-- Every range of R34 at both ends, for N_MAX 4096, and the last address. -/
theorem witness_Unmapped : Config.NMaxLegal State.reset.nMax ∧
    ([0x0048, 0x0FF8, 0x12C0, 0x1FF8, 0x22C0, 0xFFF8, 0x18000, 0xFFFFF8].all fun a =>
      let x := (BitVec.ofNat 24 a).toNat
      x % 8 == 0 && ((0x0048 ≤ x && x ≤ 0x0FFF) || (0x12C0 ≤ x && x ≤ 0x1FFF) || (0x22C0 ≤ x && x ≤ 0xFFFF) ||
        0x10000 + 8 * State.reset.nMax ≤ x)) = true := by decide

theorem witness_Undefined : ((0#2 : BitVec 2) ≠ 3#2 ∧ (1#2 : BitVec 2) ≠ 3#2 ∧ (2#2 : BitVec 2) ≠ 3#2) ∧
    (0x000001#24 : BitVec 24).extractLsb' 0 3 ≠ 0#3 ∧ (0x000004#24 : BitVec 24).extractLsb' 0 3 ≠ 0#3 := by decide

theorem witness_ReadsAreIdempotent : definedAccess 0x001000#24 3#2 = true ∧ select State.reset.nMax 0x001000#24 ≠ .unmapped ∧
    definedAccess 0x000018#24 3#2 = true ∧ select State.reset.nMax 0x000018#24 ≠ .unmapped ∧
    ∃ t u v, exec (.busRead 0x001000#24 3#2) State.reset = .next t ∧ exec (.busRead 0x000018#24 3#2) t = .next u ∧
      exec (.busRead 0x001000#24 3#2) u = .next v := ⟨by decide, by decide, by decide, by decide, _, _, _, rfl, rfl, rfl⟩

/-- The forms the clauses of the frame of BUS_WRITE tell apart. -/
theorem witness_BusWriteFrame :
    (definedAccess 0x000010#24 3#2 = true ∧ select State.reset.nMax 0x000010#24 = .ctrl) ∧
    (definedAccess 0x000020#24 3#2 = true ∧ select State.reset.nMax 0x000020#24 = .cmd) ∧
    (definedAccess 0x000028#24 3#2 = true ∧ select State.reset.nMax 0x000028#24 = .blockLen) ∧
    (definedAccess 0x000030#24 3#2 = true ∧ select State.reset.nMax 0x000030#24 = .sampleRate) ∧
    (definedAccess 0x017FF8#24 3#2 = true ∧ select State.reset.nMax 0x017FF8#24 = .sample 4095) ∧
    (definedAccess 0x001000#24 3#2 = true ∧ select State.reset.nMax 0x001000#24 = .result 0) ∧
    definedAccess 0x000011#24 3#2 = false := by decide

theorem witness_Protected : busyCore.status.busy = true ∧ Config.NMaxLegal busyCore.nMax ∧
    (∃ i < busyCore.nMax, (0x017FF8#24 : BitVec 24) = BitVec.ofNat 24 (0x10000 + 8 * i)) ∧
    definedAccess 0x001000#24 3#2 = true ∧ select busyCore.nMax 0x001000#24 ≠ .unmapped :=
  ⟨rfl, by decide, ⟨4095, by decide, rfl⟩, by decide, by decide⟩

theorem witness_OneAccess : ∃ t, exec (.busRead 0x000048#24 3#2) State.reset = .next t := ⟨_, rfl⟩

theorem witness_ReservedCommand : (0x100#64 : Word).extractLsb' 8 56 ≠ 0#56 ∧ 3 ≤ ((0x03#64 : Word).extractLsb' 0 8).toNat ∧
    3 ≤ ((0xFF#64 : Word).extractLsb' 0 8).toNat := by decide

/-- One state for each clause of `validate`, at the ends of the ranges. -/
theorem witness_Validate :
    State.reset.blockLen.toNat = 0 ∧
    (loaded 1#32 0#64 0#64 0#64 0#64 0#64).blockLen.toNat = 1 ∧
    (let s := loaded 4097#32 0#64 0#64 0#64 0#64 0#64; 2 ≤ s.blockLen.toNat ∧ s.nMax < s.blockLen.toNat) ∧
    (let s := loaded 2#32 0x8000000000000000#64 0#64 0#64 0#64 0#64;
      2 ≤ s.blockLen.toNat ∧ s.blockLen.toNat ≤ s.nMax ∧ isFinite s.sampleRate = true ∧ rateValid s.sampleRate = false) ∧
    (let s := loaded 4#32 0x40E7700000000000#64 0#64 0#64 0x7FF8000000000000#64 0#64;
      2 ≤ s.blockLen.toNat ∧ s.blockLen.toNat ≤ s.nMax ∧ isFinite s.sampleRate = true ∧ rateValid s.sampleRate = true ∧
        isFinite (s.sampleAt 2) = false ∧ ∀ j < 2, isFinite (s.sampleAt j) = true) ∧
    (2 ≤ zeroBlock.blockLen.toNat ∧ zeroBlock.blockLen.toNat ≤ zeroBlock.nMax ∧ rateValid zeroBlock.sampleRate = true ∧
      ∀ i < zeroBlock.blockLen.toNat, isFinite (zeroBlock.sampleAt i) = true) := by decide

/-- `rateValid` is the statements' "finite and greater than 0". -/
theorem witness_rate : isFinite zeroBlock.sampleRate = true ∧ 0 < f64Value zeroBlock.sampleRate :=
  (rateValid_iff _).1 (by decide)

/-- A failed check, and a valid block whose magnitudes are not finite. -/
theorem witness_InvalidBlock :
    (busyCore.validate = (1#4, 0#64) ∧ (1#4 : BitVec 4) ≠ 0#4) ∧
    (cosineBlock.validate.1 = 0#4 ∧ isFinite (cosineBlock.magnitudeWith nanFn 0) = false ∧
      ∀ j : Fin 88, j < 0 → isFinite (cosineBlock.magnitudeWith nanFn j) = true) ∧
    (busyCore.status.busy = true ∧ State.order { busyCore with order := [.core] } = .core :: []) := by
  refine ⟨by decide, ⟨by decide, ?_, fun j hj => absurd hj (Fin.not_lt_zero j)⟩, rfl, rfl⟩
  rw [nanFn_magnitude]
  decide

theorem toReal_one : toReal 0x3FF0000000000000#64 = 1 := by
  have h : 0x3FF0000000000000#64 = f64OfFields false 1023 0 := by decide
  rw [h, (toReal_ofFields 1023 0 (by decide) (by decide) (by decide)).2]
  norm_num

theorem toReal_minus_one : |toReal 0xBFF0000000000000#64| = 1 := by
  have h1 : f64Sign 0xBFF0000000000000#64 = true := by decide
  have h2 : f64Significand 0xBFF0000000000000#64 = 2 ^ 52 := by decide
  have h3 : f64Scale 0xBFF0000000000000#64 = 1023 := by decide
  simp only [toReal, f64Value, h1, h2, h3]
  norm_num

theorem toReal_110 : toReal 0x405B800000000000#64 = 110 := by
  have h : 0x405B800000000000#64 = f64OfFields false 0x405 0xB800000000000 := by decide
  rw [h, (toReal_ofFields 0x405 0xB800000000000 (by decide) (by decide) (by decide)).2]
  norm_num

theorem toReal_freq87_le : toReal (freq 87) ≤ 4187 := by
  have h : freq 87 = f64OfFields false 0x40B 0x05A0250C2B956 := by decide
  rw [h, (toReal_ofFields 0x40B 0x05A0250C2B956 (by decide) (by decide) (by decide)).2]
  norm_num

/-- A block of the nominal envelope, for the suggested parameters, and a magnitude function with the property R74. -/
theorem witness_Accurate :
    Accurate cosineBlock.nMax tolAbsSuggested cyclesMaxSuggested gridMagnitude ∧
    (cosineBlock.ctrl.winSel = 0#2 ∨ cosineBlock.ctrl.winSel = 1#2) ∧
    NominalEnvelope cosineBlock.nMax cyclesMaxSuggested cosineBlock.block cosineBlock.blockLen.toNat cosineBlock.sampleRate := by
  refine ⟨gridMagnitude_accurate _ _, by decide, by decide, ⟨by decide, ?_⟩, ⟨by decide, ?_⟩, ?_⟩
  · have hb : cosineBlock.block = [0x3FF0000000000000#64, 0#64, 0xBFF0000000000000#64, 0#64] := by decide
    rw [hb]
    have h0 : toReal 0#64 = 0 := toReal_of_isZero _ (by decide)
    intro w hw
    simp only [List.mem_cons, List.not_mem_nil, or_false] at hw
    rcases hw with rfl | rfl | rfl | rfl
    · exact ⟨by decide, by rw [toReal_one]; norm_num⟩
    · exact ⟨by decide, by rw [h0]; norm_num⟩
    · exact ⟨by decide, toReal_minus_one.le⟩
    · exact ⟨by decide, by rw [h0]; norm_num⟩
  · rw [show cosineBlock.sampleRate = 0x405B800000000000#64 from rfl, toReal_110]; norm_num
  · rw [show cosineBlock.sampleRate = 0x405B800000000000#64 from rfl, toReal_110,
      show cosineBlock.blockLen.toNat = 4 from rfl, div_le_iff₀ (by norm_num)]
    have := toReal_freq87_le
    unfold cyclesMaxSuggested
    norm_num
    linarith

/-- A BUSY core whose block is all zeros. -/
def busyZeroBlock : State := busy zeroBlock

/-- It commits. -/
theorem witness_Commit : busyZeroBlock.status.busy = true ∧ (busyZeroBlock.setOrder [.core]).order = .core :: [] ∧
    busyZeroBlock.validate.1 = 0#4 ∧ ∀ k, isFinite (busyZeroBlock.magnitudeWith Config.rawMagnitude k) = true := by
  refine ⟨by decide, by decide, by decide, fun k => ?_⟩
  rw [zero_magnitude _ _ _ (by decide)]
  decide

/-- The cosine block without a window. -/
def plainBlock : State := cosineBlock.setCtrl ⟨false, 0#2, false⟩

/-- It again, with a sample past N, the flags, and WIN_SEL with WIN_EN clear, all other. -/
def plainBlockAgain : State := ((cosineBlock.writeSample 4 7#64).setCtrl ⟨false, 1#2, true⟩).setStatus busyCore.status

theorem witness_SameInputs :
    plainBlock.nMax = plainBlockAgain.nMax ∧ plainBlock.blockLen = plainBlockAgain.blockLen ∧
    plainBlock.sampleRate = plainBlockAgain.sampleRate ∧ plainBlock.ctrl.winEn = plainBlockAgain.ctrl.winEn ∧
    (plainBlock.ctrl.winEn = true → plainBlock.ctrl.winSel = plainBlockAgain.ctrl.winSel) ∧
    ∀ i < plainBlock.blockLen.toNat, plainBlock.sampleAt i = plainBlockAgain.sampleAt i := by decide

/-- A block that commits and one that fails, for the two outcomes of the same inputs. -/
theorem witness_SameBlock :
    (zeroBlock.complete.status.done = true ∧ zeroBlock.status.done = false) ∧
    (State.reset.complete.status.err = true ∧ State.reset.status.err = false) := by
  refine ⟨⟨?_, by decide⟩, by decide, by decide⟩
  have hn : zeroBlock.firstBadNote Config.rawMagnitude = none :=
    (zeroBlock.firstBadNote_eq_none _).2 fun k => by rw [zero_magnitude _ _ _ zeroBlock_zeros]; decide
  rw [State.complete, State.completeWith_commit _ _ (by rw [zeroBlock_valid]; rfl) hn, State.commit_status]
  decide

theorem witness_Starts :
    let o : List Event := [.access ⟨0x00002007#32, 1#64⟩, .core, .access ⟨0x00002007#32, 1#64⟩, .core]
    zeroBlock.status.busy = false ∧ State.order { zeroBlock with order := o } = o ∧ zeroBlock.validate.1 = 0#4 ∧
      2 ≤ zeroBlock.blockLen.toNat ∧ zeroBlock.blockLen.toNat ≤ zeroBlock.nMax := by decide

theorem witness_ResetEvent : State.order { busyCore with order := [.reset] } = .reset :: [] := rfl

/-- The invariant holds of a state that is not the reset state and steps. -/
theorem witness_Inv : State.Inv { State.reset with order := [.access ⟨0x00002007#32, 1#64⟩] } ∧
    ∃ t, step { State.reset with order := [.access ⟨0x00002007#32, 1#64⟩] } = .next t := by
  refine ⟨⟨by decide, by decide, ?_, ?_, ?_, ?_⟩, _, rfl⟩
  · unfold StatusConsistent; decide
  · unfold CauseLegal; decide
  · unfold ResultLegal; decide
  · unfold MemoryLegal; decide

/-- BUSY is changed by a START, by a completion and by a reset. -/
theorem witness_BusyChanges :
    holds (bus 0x00002007#32 1#64 State.reset) (fun t => t.status.busy) = true ∧
    holds (step busyCore) (fun t => !t.status.busy) = true ∧
    holds (step { busyCore with order := [.reset] }) (fun t => !t.status.busy) = true := by decide

/-- A run of two steps with no reset, no commit and an equal count. -/
theorem witness_EqualSequence :
    let s : State := { State.reset with order := [.access ⟨0x00003806#32, 0#64⟩, .access ⟨0x00100006#32, 0#64⟩] }
    s.noReset ∧ holds (Host.Core.run Sys2Proof.core 2 s) (fun t => t.resultSeq == s.resultSeq) = true ∧
      commitsIn 2 s < 2 ^ 64 := by
  refine ⟨by unfold State.noReset; decide, by decide, by decide⟩

/-- A BUSY core, a dropped write, and the completion after it: both states before the last are BUSY. -/
theorem witness_InputsFrozen :
    let s : State := { busyCore with order := [.access ⟨0x00002807#32, 4#64⟩, .core] }
    s.noReset ∧ (∀ m < 2, holds (Host.Core.run Sys2Proof.core m s) (fun u => u.status.busy) = true) ∧
      holds (Host.Core.run Sys2Proof.core 2 s) (fun t => t.blockLen == 0#32) = true := by
  refine ⟨by unfold State.noReset; decide, by decide, by decide⟩

/-- Each sticky flag is cleared by CLEAR_STATUS, and set by its event. -/
theorem witness_Sticky :
    holds (bus 0x00002007#32 2#64 { State.reset with
        status := { Status.reset with overrun := true, wrBusy := true, badCmd := true, badAccess := true } })
      (fun t => !t.status.overrun && !t.status.wrBusy && !t.status.badCmd && !t.status.badAccess) = true ∧
    holds (bus 0x00002007#32 1#64 busyCore) (fun t => t.status.overrun) = true ∧
    holds (bus 0x00003007#32 1#64 busyCore) (fun t => t.status.wrBusy) = true ∧
    holds (bus 0x00002007#32 3#64 State.reset) (fun t => t.status.badCmd) = true ∧
    holds (bus 0x00000006#32 0#64 State.reset) (fun t => !t.status.badAccess) = true ∧
    holds (bus 0x00004806#32 0#64 State.reset) (fun t => t.status.badAccess) = true := by decide

/-- V-I3, V-I7: the steps the statement about `irq` speaks of. -/
theorem witness_Irq :
    holds (bus 0x00001007#32 9#64 { State.reset with status := { Status.reset with done := true } }) (fun t => t.irq) = true ∧
    holds (bus 0x00001007#32 1#64 { State.reset with
        status := { Status.reset with err := true, errCause := 2#4 }, ctrl := ⟨true, 0#2, true⟩ })
      (fun t => !t.irq && t.status.pack == 0x24#64) = true := by decide

/-- The first and the last sample at the ends of N_MAX, and the values read by one pass of `rdvec`. -/
theorem witness_AssemblerLines : (Config.NMaxLegal 2 ∧ 1 < 2) ∧ (Config.NMaxLegal (2 ^ 20) ∧ 2 ^ 20 - 1 < 2 ^ 20) ∧
    (List.replicate 90 (0#64 : Word)).length = 90 ∧ rdvec.again (List.replicate 90 0#64) = false ∧
    rdvec.again (List.replicate 89 0#64 ++ [1#64]) = true := by decide

theorem witness_EveryBlockEnds :
    let s : State := { busyCore with order := [.access ⟨0x00001806#32, 0#64⟩, .core] }
    s.status.busy = true ∧ s.noReset ∧ s.requestsWellFormed := by
  refine ⟨rfl, by unfold State.noReset; decide, fun r hr => ?_⟩
  simp only [List.mem_cons, Event.access.injEq, reduceCtorEq, List.not_mem_nil, or_false] at hr
  rw [hr]
  decide

/-- Note indices an octave apart; a ratio f / R that is an integer; block lengths and indices at their ends. -/
theorem witness_Ideal : ((75 : Fin 88) < 87 ∧ (87 : Fin 88).val = (75 : Fin 88).val + 12) ∧ (55 : ℝ) / 27.5 = ((2 : ℤ) : ℝ) ∧
    (2 ≤ 2 ∧ 0 < 2 ∧ 1 < 2) ∧ (1 ≤ 1 ∧ ∀ i < 1, |(fun _ => (1 : ℝ)) i| ≤ 1) := by
  refine ⟨by decide, by norm_num, by decide, by decide, fun i _ => by norm_num⟩

end Sys2Proof.Tests
end

section
/-! PROOFS. The invariant of every reachable state (10_state.md R19, R20, R27; 60_exceptions.md R104). -/

namespace Sys2Proof.Machine

/-! ### The parts of the invariant -/

theorem StatusConsistent.of_noError {t : Status} {info : Word} (hd : t.busy = true → t.done = false) (he : t.err = false)
    (hc : t.errCause = causeNone) (hi : info = 0#64) : StatusConsistent t info :=
  ⟨fun hb => ⟨hd hb, he, hc⟩, fun h => by simp [he] at h, fun _ => ⟨hc, hi⟩⟩

theorem CauseLegal.of_noError {nMax : Nat} {t : Status} {info : Word} (he : t.err = false) (hc : t.errCause = causeNone)
    (hi : info = 0#64) : CauseLegal nMax t info := by
  simp [CauseLegal, he, hc, hi, causeNone, causeSampleNonfinite, causeResultNonfinite]

/-- `raise InvalidBlock` is entered from BUSY, where DONE is 0 (10_state.md R20), and sets ERR. -/
theorem StatusConsistent.failed {t : Status} (c : BitVec 4) (info : Word) (hd : t.done = false) :
    StatusConsistent (t.failed c) info := by
  simp [StatusConsistent, hd]

/-- A cause below 5 comes with info 0 (60_exceptions.md R104). -/
theorem CauseLegal.noInfo (nMax : Nat) (t : Status) (c : BitVec 4) (h0 : c ≠ causeNone) (hc : c.toNat < 5) :
    CauseLegal nMax (t.failed c) 0#64 := by
  simp only [CauseLegal, Status.failed_errCause]
  exact ⟨fun _ => h0, by omega, fun h => absurd (h ▸ hc) (by decide), fun h => absurd (h ▸ hc) (by decide),
    fun _ _ => trivial⟩

theorem CauseLegal.sampleNonfinite (nMax : Nat) (t : Status) (i : Nat) (hi : i < nMax) (hn : nMax ≤ 2 ^ 20) :
    CauseLegal nMax (t.failed causeSampleNonfinite) (BitVec.ofNat 64 i) := by
  have hinfo : (BitVec.ofNat 64 i).toNat < nMax := by rw [BitVec.toNat_ofNat]; omega
  simp only [CauseLegal, Status.failed_errCause]
  exact ⟨fun _ => by decide, by decide, fun _ => hinfo, fun h => absurd h (by decide), fun h => absurd rfl h⟩

theorem CauseLegal.resultNonfinite (nMax : Nat) (t : Status) (k : Fin 88) :
    CauseLegal nMax (t.failed causeResultNonfinite) (BitVec.ofNat 64 k.val) := by
  have hinfo : (BitVec.ofNat 64 k.val).toNat < 88 := by rw [BitVec.toNat_ofNat]; omega
  simp only [CauseLegal, Status.failed_errCause]
  exact ⟨fun _ => by decide, by decide, fun h => absurd h (by decide), fun _ => hinfo, fun _ h => absurd rfl h⟩

/-- The cause and info that `validate` gives for an invalid block are produced ones (60_exceptions.md R104). -/
theorem State.validate_causeLegal (s : State) (hn : s.nMax ≤ 2 ^ 20) (hv : s.validate.1 ≠ causeNone) :
    CauseLegal s.nMax (s.status.failed s.validate.1) s.validate.2 := by
  rcases s.validate_cases with h | h | h | h | h | ⟨i, h, hi, hN⟩
  · exact absurd (congrArg Prod.fst h) hv
  · rw [h]; exact .noInfo _ _ _ (by decide) (by decide)
  · rw [h]; exact .noInfo _ _ _ (by decide) (by decide)
  · rw [h]; exact .noInfo _ _ _ (by decide) (by decide)
  · rw [h]; exact .noInfo _ _ _ (by decide) (by decide)
  · rw [h]; exact .sampleNonfinite _ _ i (by omega) hn

theorem ResultLegal.zero : ResultLegal (Vector.replicate 88 0#64) := fun k => by
  rw [Fin.getElem_fin, Vector.getElem_replicate]; decide

/-- A vector of finite magnitudes is a legal result (42_magnitude.md R72). -/
theorem ResultLegal.magnitudes (f : Config.MagFn) (s : State) (hf : s.firstBadNote f = none) :
    ResultLegal (Vector.ofFn (s.magnitudeWith f)) := fun k => by
  have hk := (s.firstBadNote_eq_none f).1 hf k
  rw [State.commit_vector_getElem]
  exact ⟨hk, constrain_sign _ _ _ _ _ _ _ hk⟩

theorem MemoryLegal.storeSample {nMax : Nat} {m : Memory} (hm : MemoryLegal nMax m) (i : Nat) (hi : i < nMax) (w : Word) :
    MemoryLegal nMax (Memory.storeBytes m (sampleAddr i) (wordBytes w)) := by
  obtain ⟨hwf, hin⟩ := hm
  refine ⟨Memory.storeBytes_wf _ _ _ hwf, fun c hc => ?_⟩
  rcases Memory.mem_storeBytes _ _ _ _ hc with h | h
  · rw [wordBytes_length, sampleAddr] at h; omega
  · exact hin c h

/-! ### The invariant, kept by every operation -/

/-- The invariant is about the fields it names alone. -/
theorem State.Inv.congr {s t : State} (h : s.Inv) (hn : t.nMax = s.nMax) (hc : t.ctrl = s.ctrl) (hs : t.status = s.status)
    (he : t.errInfo = s.errInfo) (hr : t.result = s.result) (hm : t.mem = s.mem) : t.Inv := by
  obtain ⟨h1, h2, h3, h4, h5, h6⟩ := h
  constructor <;> simpa only [hn, hc, hs, he, hr, hm]

/-- The sticky flags of 60_exceptions.md R106 are in no clause of the invariant. -/
theorem State.Inv.setStatus_sticky {s : State} (h : s.Inv) (v : Status) (hb : v.busy = s.status.busy)
    (hd : v.done = s.status.done) (he : v.err = s.status.err) (hc : v.errCause = s.status.errCause) :
    (s.setStatus v).Inv where
  nMaxLegal := h.nMaxLegal
  winSelLegal := h.winSelLegal
  statusConsistent := by simpa [StatusConsistent, hb, hd, he, hc] using h.statusConsistent
  causeLegal := by simpa [CauseLegal, he, hc] using h.causeLegal
  resultLegal := h.resultLegal
  memoryLegal := h.memoryLegal

/-- START and CLEAR_STATUS: no error is left, and no DONE. -/
theorem State.Inv.setStatus_noError {s : State} (h : s.Inv) (v : Status) (hd : v.done = false) (he : v.err = false)
    (hc : v.errCause = causeNone) : ((s.setStatus v).setErrInfo 0#64).Inv where
  nMaxLegal := h.nMaxLegal
  winSelLegal := h.winSelLegal
  statusConsistent := .of_noError (fun _ => hd) he hc rfl
  causeLegal := .of_noError he hc rfl
  resultLegal := h.resultLegal
  memoryLegal := h.memoryLegal

theorem State.Inv.setCtrl_write {s : State} (h : s.Inv) (w : Word) : (s.setCtrl (s.ctrl.write w)).Inv :=
  { h with winSelLegal := winSelWrite_legal _ _ h.winSelLegal }

theorem State.Inv.writeSample {s : State} (h : s.Inv) (i : Nat) (hi : i < s.nMax) (w : Word) : (s.writeSample i w).Inv :=
  { h with memoryLegal := h.memoryLegal.storeSample i hi w }

/-- Every instruction keeps the invariant. -/
theorem State.Inv.busEffect {s t : State} (h : s.Inv) (he : BusEffect s t) : t.Inv := by
  cases he with
  | nothing => exact h
  | badAccess | badCmd | dropped | overrun => exact h.setStatus_sticky _ rfl rfl rfl rfl
  | badRead => exact (h.setStatus_sticky s.status.setBadAccess rfl rfl rfl rfl).congr rfl rfl rfl rfl rfl rfl
  | read | blockLen | sampleRate => exact h.congr rfl rfl rfl rfl rfl rfl
  | started | cleared => exact h.setStatus_noError _ rfl rfl rfl
  | ctrl _ w => exact h.setCtrl_write w
  | sample _ i hi w => exact h.writeSample i hi w

theorem State.Inv.takeInvalidBlock {s : State} (h : s.Inv) (hb : s.status.busy = true) (c : BitVec 4) (info : Word)
    (hc : CauseLegal s.nMax (s.status.failed c) info) : (s.takeInvalidBlock c info).Inv where
  nMaxLegal := h.nMaxLegal
  winSelLegal := h.winSelLegal
  statusConsistent := .failed c info (h.statusConsistent.1 hb).1
  causeLegal := hc
  resultLegal := h.resultLegal
  memoryLegal := h.memoryLegal

/-- A commit is entered from BUSY, where the invariant already says that no error is recorded. -/
theorem State.Inv.commit {s : State} (h : s.Inv) (hb : s.status.busy = true) (v : Vector Word 88) (hv : ResultLegal v) :
    (s.commit v).Inv := by
  obtain ⟨hbusy, -, hnoErr⟩ := h.statusConsistent
  obtain ⟨-, he, hc⟩ := hbusy hb
  have hi := (hnoErr he).2
  exact {
    nMaxLegal := h.nMaxLegal
    winSelLegal := h.winSelLegal
    statusConsistent := .of_noError (fun hb => absurd hb (by simp)) he hc hi
    causeLegal := .of_noError he hc hi
    resultLegal := hv
    memoryLegal := h.memoryLegal }

theorem State.Inv.completeWith {s : State} (f : Config.MagFn) (h : s.Inv) (hb : s.status.busy = true) :
    (s.completeWith f).Inv := by
  rcases s.completeWith_cases f with ⟨hv, ht⟩ | ⟨k, -, -, ht⟩ | ⟨-, hf, ht⟩ <;> rw [ht]
  · exact h.takeInvalidBlock hb _ _ (s.validate_causeLegal h.nMaxLegal.2 hv)
  · exact h.takeInvalidBlock hb _ _ (.resultNonfinite _ _ k)
  · exact h.commit hb _ (.magnitudes f s hf)

theorem State.Inv.coreTurn {s : State} (h : s.Inv) : s.coreTurn.Inv := by
  cases hb : s.status.busy with
  | false => rwa [s.coreTurn_idle hb]
  | true => rw [s.coreTurn_busy hb]; exact h.completeWith _ hb

/-- The reset event leads to the invariant from every state with a legal N_MAX. -/
theorem State.resetEvent_inv (s : State) (hn : Config.NMaxLegal s.nMax) : s.resetEvent.Inv where
  nMaxLegal := hn
  winSelLegal := .inl rfl
  statusConsistent := .of_noError (fun _ => rfl) rfl rfl rfl
  causeLegal := .of_noError rfl rfl rfl
  resultLegal := .zero
  memoryLegal := ⟨rfl, by simp⟩

/-- Settles O46: the reset state holds what the reset event restores. -/
theorem resetMeetsTheInvariant : Obligations.ResetMeetsTheInvariant :=
  (State.reset.resetEvent_inv (by decide)).congr rfl rfl rfl rfl rfl rfl

/-- Settles O47, by the four kinds of events a step can perform. -/
theorem everyStepKeepsTheInvariant : Obligations.EveryStepKeepsTheInvariant := by
  intro s t hs hstep
  have hrest (rest : List Event) : (s.setOrder rest).Inv := hs.congr rfl rfl rfl rfl rfl rfl
  rcases step_cases s t hstep with ⟨-, rfl⟩ | ⟨rest, -, rfl⟩ | ⟨rest, -, rfl⟩ | ⟨r, rest, i, -, -, he⟩
  · exact hs.coreTurn
  · exact (hrest rest).coreTurn
  · exact State.resetEvent_inv _ hs.nMaxLegal
  · exact (hrest rest).busEffect he

end Sys2Proof.Machine
end

section
/-! PROOFS. What changes BUSY, and the registers at their offsets (10_state.md R16 to R29). -/

namespace Sys2Proof

/-- A write decodes to the one well-formed spelling (30_encoding.md R47, R49; log 11). -/
theorem decodeWrite_wellFormed (a : BitVec 24) (sz : BitVec 2) (w : Word) : (decodeWrite a sz w).wellFormed = true := by
  unfold decodeWrite
  split
  · cases hc : decodeCmd w with
    | some c => cases c <;> rfl
    | none => simp [Instr.wellFormed, isCommandWrite, ← decodeCmd_isSome, hc]
  · rename_i hcmd
    have hne : (a == 0x000020#24 && sz == 3#2) = false := by simpa using hcmd
    simp [Instr.wellFormed, isCommandWrite, hne]

theorem decode_wellFormed (r : Request) (i : Instr) (h : decode r = .ok i) : i.wellFormed = true := by
  unfold decode at h
  split at h
  · cases h
  · split at h <;> cases h
    · rfl
    · exact decodeWrite_wellFormed _ _ _

/-- A word that is no command's is a reserved one (30_encoding.md R49). -/
theorem decodeCmd_eq_none (w : Word) (h0 : w ≠ 0x0#64) (h1 : w ≠ 0x1#64) (h2 : w ≠ 0x2#64) : decodeCmd w = none := by
  rw [← Option.not_isSome_iff_eq_none, decodeCmd_isSome]
  simp [legalCmdWord, h0, h1, h2]

end Sys2Proof

namespace Sys2Proof.Machine

/-! ### BUSY and N_MAX -/

/-- Of the instructions only START changes BUSY (10_state.md R15). -/
theorem exec_busy_eq (i : Instr) (s t : State) (hwf : i.wellFormed = true) (hi : i ≠ .start) (h : exec i s = .next t) :
    t.status.busy = s.status.busy := by
  cases i with
  | busRead a size => rcases exec_busRead_cases a size s t h with ⟨rfl, -⟩ | ⟨v, rfl⟩ <;> rfl
  | busWrite a size w =>
    rcases exec_busWrite_cases a size w s t hwf h with ⟨rfl, -⟩ | ⟨rfl, -⟩ | ⟨rfl, -⟩ | ⟨ht, -⟩
    · rfl
    · rfl
    · rfl
    · rw [ht]
  | nop => cases h; rfl
  | start => exact absurd rfl hi
  | clearStatus => cases h; rfl

/-- Settles O48, by the kinds of events a step can perform and, for an access, the instruction it decodes to. -/
theorem onlyStartCompletionAndResetChangeBusy : Obligations.OnlyStartCompletionAndResetChangeBusy := by
  intro s t hstep hne
  rcases step_exec s t hstep with ⟨hcore, rfl⟩ | ⟨rest, ho, -⟩ | ⟨r, rest, i, ho, hd, hx⟩
  · refine .inr (.inl ⟨?_, hcore⟩)
    by_contra hb
    rw [State.coreTurn_idle _ (by simpa using hb)] at hne
    exact hne rfl
  · exact .inr (.inr ⟨rest, ho⟩)
  · obtain rfl : i = .start := by
      by_contra hi
      exact hne (exec_busy_eq i _ t (decode_wellFormed r i hd) hi hx).symm
    rcases exec_start_cases _ t hx with ⟨-, rfl⟩ | ⟨hb, -⟩
    · exact absurd rfl hne
    · exact .inl ⟨hb, r, rest, ho, hd⟩

theorem BusEffect.nMax_eq {s t : State} (h : BusEffect s t) : t.nMax = s.nMax := by
  cases h <;> rfl

theorem State.coreTurn_nMax (s : State) : s.coreTurn.nMax = s.nMax := by
  rcases s.coreTurn_cases with ⟨h, -⟩ | ⟨-, c, info, h, -⟩ | ⟨-, -, -, h⟩
  · rw [h]
  · rw [h, State.takeInvalidBlock_nMax]
  · rw [h, State.commit_nMax]

/-- No step changes N_MAX (log 5). -/
theorem step_nMax_eq (s t : State) (h : step s = .next t) : t.nMax = s.nMax := by
  rcases step_cases s t h with ⟨-, rfl⟩ | ⟨rest, -, rfl⟩ | ⟨rest, -, rfl⟩ | ⟨r, rest, i, -, -, he⟩
  · exact s.coreTurn_nMax
  · exact State.coreTurn_nMax _
  · rfl
  · exact he.nMax_eq

/-! ### The layout of the packed registers -/

/-- N_MAX fits CAPS[31:0] (10_state.md R18). -/
theorem capsValue_low (n : Nat) (hn : n < 2 ^ 32) : ((capsValue n).extractLsb' 0 32).toNat = n := by
  rw [show (capsValue n).extractLsb' 0 32 = BitVec.ofNat 32 n from BitVec.extractLsb'_append_eq_right, BitVec.toNat_ofNat,
    Nat.mod_eq_of_lt hn]

/-- The fields of CAPS above N_MAX do not depend on it (10_state.md R18). -/
theorem capsValue_high (n i l : Nat) (hi : 32 ≤ i) : (capsValue n).extractLsb' i l =
    (0#23 ++ Config.hasHann ++ BitVec.ofNat 8 Config.numNotes).extractLsb' (i - 32) l :=
  BitVec.extractLsb'_append_eq_of_le hi

/-- WIN_SEL sits in CTRL[2:1] (10_state.md R19). -/
theorem Ctrl.pack_winSel (c : Ctrl) : c.pack.extractLsb' 1 2 = c.winSel := by
  apply BitVec.eq_of_getLsbD_eq
  intro i hi
  rw [BitVec.getLsbD_extractLsb', Ctrl.pack_getLsbD]
  interval_cases i <;> simp

theorem Ctrl.pack_reserved (c : Ctrl) : c.pack.extractLsb' 4 60 = 0#60 := by
  apply BitVec.eq_of_getLsbD_eq
  intro i hi
  rw [BitVec.getLsbD_extractLsb', Ctrl.pack_getLsbD]
  iterate 4 rw [if_neg (by omega)]
  simp

/-- ERR_CAUSE sits in STATUS[7:4] (10_state.md R20). -/
theorem Status.pack_errCause (t : Status) : t.pack.extractLsb' 4 4 = t.errCause := by
  apply BitVec.eq_of_getLsbD_eq
  intro i hi
  rw [BitVec.getLsbD_extractLsb', Status.pack_getLsbD]
  interval_cases i <;> simp

theorem Status.pack_reserved (t : Status) : t.pack.extractLsb' 12 52 = 0#52 := by
  apply BitVec.eq_of_getLsbD_eq
  intro i hi
  rw [BitVec.getLsbD_extractLsb', Status.pack_getLsbD]
  iterate 9 rw [if_neg (by omega)]
  simp

/-! ### The port at the offset of a register -/

theorem exec_busRead_of_select (a : BitVec 24) (s : State) (r : Reg) (h8 : a.toNat % 8 = 0) (hs : select s.nMax a = r)
    (hu : r ≠ .unmapped) : exec (.busRead a 3#2) s = .next (s.setRdata (s.readReg r)) :=
  exec_busRead_of_covers a s r h8 (hs ▸ select_covers _ _) hu

theorem exec_busWrite_of_select (a : BitVec 24) (w : Word) (s : State) (r : Reg) (h8 : a.toNat % 8 = 0)
    (hs : select s.nMax a = r) : exec (.busWrite a 3#2 w) s = writeReg r w s :=
  exec_busWrite_of_covers a w s r h8 (hs ▸ select_covers _ _)

/-- The elements of RESULT, FREQ and SAMPLE lie at aligned addresses (10_state.md R16). -/
theorem elementAddr_aligned (base i : Nat) (h : base % 8 = 0) : (BitVec.ofNat 24 (base + 8 * i)).toNat % 8 = 0 := by
  rw [BitVec.toNat_ofNat]; omega

section
variable (a : BitVec 24) (w : Word) (s t : State) (h : exec (.busWrite a 3#2 w) s = .next (s.protectedWrite t))
include h

/-- A write to a protected register while IDLE is performed (44_block_process.md R86). -/
theorem exec_busWrite_idle (hb : s.status.busy = false) : exec (.busWrite a 3#2 w) s = .next t := by
  rw [h, s.protectedWrite_idle t hb]

/-- A write to a protected register while BUSY is dropped, whatever it would store (44_block_process.md R86). -/
theorem exec_busWrite_busy (hb : s.status.busy = true) :
    exec (.busWrite a 3#2 w) s = .next { s with status := { s.status with wrBusy := true } } := by
  rw [h, s.protectedWrite_busy t hb]; rfl

end

/-- `winSelWrite` by the number of the field, as 10_state.md R19 says it. -/
theorem winSelWrite_eq (old v : BitVec 2) : winSelWrite old v = if v.toNat ≤ 1 then v else old := by
  have h : (v = 0#2 ∨ v = 1#2) ↔ v.toNat ≤ 1 := by
    rw [← BitVec.toNat_inj, ← BitVec.toNat_inj, BitVec.toNat_ofNat, BitVec.toNat_ofNat]
    omega
  simp only [winSelWrite, h]

/-- A block of legal length with an invalid rate fails for its rate (44_block_process.md R88). -/
theorem State.validate_rateInvalid (s : State) (h2 : 2 ≤ s.blockSize) (hN : s.blockSize ≤ s.nMax)
    (hr : rateValid s.sampleRate = false) : s.validate = (causeRateInvalid, 0#64) := by
  rw [State.validate, if_neg (by omega), if_neg (by omega), if_neg (by omega), hr]; rfl

/-! ### The obligations about the registers -/

/-- Settles O10, field by field of `capsValue`. -/
theorem capsReportsTheParameters : Obligations.CapsReportsTheParameters := by
  refine ⟨fun s w hN => ⟨⟨capsValue s.nMax, ?_, ?_, ?_, ?_, ?_, ?_⟩, ?_⟩, step_nMax_eq⟩
  · exact exec_busRead_of_covers _ s .caps rfl rfl nofun
  · exact capsValue_low _ (hN.2.trans_lt (by decide))
  · rw [capsValue_high _ _ _ (by decide)]; decide
  · rw [capsValue_high _ _ _ (by decide)]; decide
  · rw [capsValue_high _ _ _ (by decide)]; decide
  · intro h; rw [h]; rfl
  · exact exec_busWrite_of_covers _ w s .caps rfl rfl

/-- Settles O11, field by field of `Ctrl.pack`; CTRL is a protected register. -/
theorem ctrlReadsAndWritesItsFields : Obligations.CtrlReadsAndWritesItsFields := by
  refine ⟨fun s w => ?_, rfl⟩
  have hw := exec_busWrite_of_covers 0x000010#24 w s .ctrl rfl rfl
  refine ⟨⟨s.ctrl.pack, exec_busRead_of_covers _ s .ctrl rfl rfl nofun, ?_, s.ctrl.pack_winSel, ?_, s.ctrl.pack_reserved⟩,
    fun hb => ?_, exec_busWrite_busy _ w s _ hw⟩
  · rw [Ctrl.pack_getLsbD]; rfl
  · rw [Ctrl.pack_getLsbD]; rfl
  · rw [exec_busWrite_idle _ w s _ hw hb, Ctrl.write, winSelWrite_eq]; rfl

/-- Settles O12, field by field of `Status.pack`. -/
theorem statusReadsItsFields : Obligations.StatusReadsItsFields := by
  intro s w
  refine ⟨⟨s.status.pack, exec_busRead_of_covers _ s .status rfl rfl nofun, ?_⟩,
    exec_busWrite_of_covers _ w s .status rfl rfl⟩
  simp only [Status.pack_getLsbD, Status.pack_errCause, Status.pack_reserved]
  simp

/-- Settles O13: the words 0, 1 and 2 are the three commands', and every other word is reserved. -/
theorem cmdHasNoStorageAndIssuesCommands : Obligations.CmdHasNoStorageAndIssuesCommands := by
  intro s w
  refine ⟨exec_busRead_of_covers _ s .cmd rfl rfl nofun, ?_, ?_, ?_, fun h0 h1 h2 => ?_⟩
  · rintro rfl; exact execBusWrite_command _ .nop s (decodeCmd_word .nop)
  · rintro rfl; exact execBusWrite_command _ .start s (decodeCmd_word .start)
  · rintro rfl; exact execBusWrite_command _ .clearStatus s (decodeCmd_word .clearStatus)
  · rw [exec_busWrite_of_covers 0x000020#24 w s .cmd rfl rfl, writeReg, decodeCmd_eq_none w h0 h1 h2]; rfl

/-- Settles O14: BLOCK_LEN is a protected register. -/
theorem blockLenStoresItsLowHalf : Obligations.BlockLenStoresItsLowHalf := by
  refine ⟨fun s w => ?_, rfl⟩
  have hw := exec_busWrite_of_covers 0x000028#24 w s .blockLen rfl rfl
  refine ⟨⟨s.blockLen.setWidth 64, exec_busRead_of_covers _ s .blockLen rfl rfl nofun, ?_, ?_⟩,
    exec_busWrite_idle _ w s _ hw, exec_busWrite_busy _ w s _ hw⟩
  · ext i hi; simp [show i < 64 by omega, BitVec.getLsbD_eq_getElem hi]
  · ext i hi; simp

/-- Settles O15: SAMPLE_RATE is a protected register, and +0.0 fails `rateValid`. -/
theorem sampleRateStoresEveryPattern : Obligations.SampleRateStoresEveryPattern := by
  refine ⟨fun s w => ?_, rfl, fun s hr h2 hN => s.validate_rateInvalid h2 hN (hr ▸ by decide)⟩
  have hw := exec_busWrite_of_covers 0x000030#24 w s .sampleRate rfl rfl
  exact ⟨exec_busRead_of_covers _ s .sampleRate rfl rfl nofun, exec_busWrite_idle _ w s _ hw, exec_busWrite_busy _ w s _ hw⟩

/-- Settles O17, by the address decode of the element. -/
theorem resultElementsAreReadOnly : Obligations.ResultElementsAreReadOnly := fun s k w =>
  have h8 := elementAddr_aligned 0x1000 k.val rfl
  ⟨exec_busRead_of_select _ s _ h8 (select_result s.nMax k) nofun, exec_busWrite_of_select _ w s _ h8 (select_result s.nMax k)⟩

/-- Settles O18, by the address decode of the element. -/
theorem freqElementsReadTheRom : Obligations.FreqElementsReadTheRom := fun s k w =>
  have h8 := elementAddr_aligned 0x2000 k.val rfl
  ⟨exec_busRead_of_select _ s _ h8 (select_freq s.nMax k) nofun, exec_busWrite_of_select _ w s _ h8 (select_freq s.nMax k)⟩

/-- Settles O19: the store while IDLE is `State.writeSample`. -/
theorem sampleElementsReadAndStore : Obligations.SampleElementsReadAndStore := by
  intro s i w hN hi
  have h8 := elementAddr_aligned 0x10000 i rfl
  have hsel := select_sample s.nMax i hN.2 hi
  have hw := exec_busWrite_of_select _ w s _ h8 hsel
  exact ⟨exec_busRead_of_select _ s _ h8 hsel nofun,
    fun hb => ⟨(s.writeSample i w).mem, exec_busWrite_idle _ w s _ hw hb, s.sampleAt_writeSample_same i w,
      fun j hj => s.sampleAt_writeSample_other i j w hj⟩,
    exec_busWrite_busy _ w s _ hw⟩

/-- Settles O9: offset 0x0000 is ID, which is read-only. -/
theorem idReadsItsConstantAndRefusesWrites : Obligations.IdReadsItsConstantAndRefusesWrites := fun s w =>
  ⟨exec_busRead_of_covers _ s .id rfl rfl nofun, exec_busWrite_of_covers _ w s .id rfl rfl, by decide, by decide⟩

/-- Settles O16: offsets 0x0038 and 0x0040 are read-only. -/
theorem resultSeqAndErrInfoAreReadOnly : Obligations.ResultSeqAndErrInfoAreReadOnly := fun s w =>
  ⟨exec_busRead_of_covers _ s .resultSeq rfl rfl nofun, exec_busRead_of_covers _ s .errInfo rfl rfl nofun,
    exec_busWrite_of_covers _ w s .resultSeq rfl rfl, exec_busWrite_of_covers _ w s .errInfo rfl rfl⟩

/-- Settles O44, by evaluation of the reset state. -/
theorem resetHasTheStatedValues : Obligations.ResetHasTheStatedValues := by
  refine ⟨by decide, by decide, rfl, rfl, rfl, rfl, fun k => ?_, rfl⟩
  exact Vector.getElem_replicate k.isLt

end Sys2Proof.Machine
end

section
/-! PROOFS. The port as memory (20_memory.md R34 to R37), and what a run leaves of the inputs and of RESULT (R39 to R42). -/

namespace Sys2Proof.Machine

/-! ### Runs -/

/-- A run of `n + 1` steps is a step and a run of `n`. -/
theorem run_succ_eq_next {n : Nat} {s t : State} (h : Host.Core.run Sys2Proof.core (n + 1) s = .next t) :
    ∃ u, step s = .next u ∧ Host.Core.run Sys2Proof.core n u = .next t := by
  cases hs : step s with
  | next u => exact ⟨u, rfl, run_succ n s u hs ▸ h⟩
  | fault r => cases r
  | refused r =>
    have hs : Sys2Proof.core.step s = .refused r := hs
    simp [Host.Core.run, hs] at h

theorem State.coreTurn_order (s : State) : s.coreTurn.order = s.order := by
  unfold State.coreTurn
  split
  · exact s.completeWith_order _
  · rfl

/-- A step takes the front event off the order (20_memory.md R39). -/
theorem step_order_eq {s t : State} (h : step s = .next t) : t.order = s.order.tail := by
  rcases step_exec s t h with ⟨-, rfl⟩ | ⟨rest, ho, rfl⟩ | ⟨r, rest, i, ho, -, hx⟩
  · exact State.coreTurn_order _
  · rw [ho]; rfl
  · rw [(exec_cases i _ t hx).order_eq, ho]; rfl

theorem State.noReset.step {s t : State} (hs : s.noReset) (h : step s = .next t) : t.noReset := fun hm =>
  hs (List.mem_of_mem_tail (step_order_eq h ▸ hm))

/-! ### RESULT and RESULT_SEQ -/

theorem State.commitsNext_iff (s : State) : s.commitsNext = true ↔ s.coreNext = true ∧ s.status.busy = true ∧
    s.validate.1 = causeNone ∧ s.firstBadNote Config.rawMagnitude = none := by
  simp [State.commitsNext, and_assoc]

theorem BusEffect.result_eq {s t : State} (h : BusEffect s t) : t.result = s.result := by
  cases h <;> rfl

theorem BusEffect.resultSeq_eq {s t : State} (h : BusEffect s t) : t.resultSeq = s.resultSeq := by
  cases h <;> rfl

/-- Everything a step can do to RESULT and RESULT_SEQ (20_memory.md R40). -/
theorem step_result_cases {s t : State} (h : step s = .next t) :
    (s.commitsNext = false ∧ t.result = s.result ∧ t.resultSeq = s.resultSeq) ∨
    (s.commitsNext = true ∧
      t = (s.setOrder s.order.tail).commit (Vector.ofFn (s.magnitudeWith Config.rawMagnitude))) ∨
    (∃ rest, s.order = .reset :: rest) := by
  rcases step_exec s t h with ⟨hcore, rfl⟩ | ⟨rest, ho, -⟩ | ⟨r, rest, i, ho, -, hx⟩
  · rcases (s.setOrder s.order.tail).coreTurn_cases with ⟨ht, hb⟩ | ⟨-, c, info, ht, hbad⟩ | ⟨hb, hv, hf, ht⟩ <;> rw [ht]
    · refine .inl ⟨Bool.eq_false_iff.2 fun hc => ?_, rfl, rfl⟩
      obtain ⟨-, hbusy, -⟩ := s.commitsNext_iff.1 hc
      exact absurd (hbusy.symm.trans hb) nofun
    · refine .inl ⟨Bool.eq_false_iff.2 fun hc => ?_, rfl, rfl⟩
      obtain ⟨-, -, hv, hf⟩ := s.commitsNext_iff.1 hc
      rcases hbad with hbad | ⟨k, hk⟩
      · exact hbad hv
      · exact absurd (hf.symm.trans hk) nofun
    · exact .inr (.inl ⟨s.commitsNext_iff.2 ⟨hcore, hb, hv, hf⟩, rfl⟩)
  · exact .inr (.inr ⟨rest, ho⟩)
  · have he := exec_cases i _ t hx
    exact .inl ⟨by simp [State.commitsNext, State.coreNext, ho], he.result_eq, he.resultSeq_eq⟩

/-- Settles O49: it is `step_result_cases` read element by element. -/
theorem resultChangesOnlyByAWholeCommit : Obligations.ResultChangesOnlyByAWholeCommit := by
  intro s t h
  rcases step_result_cases h with ⟨-, hr, hq⟩ | ⟨hc, rfl⟩ | hreset
  · exact .inl ⟨hr, hq⟩
  · exact .inr (.inl ⟨hc, State.commit_vector_getElem _ s, rfl, rfl, rfl⟩)
  · exact .inr (.inr hreset)

section
variable {s t : State} (hs : s.noReset)
include hs

theorem State.noReset.head_ne (rest : List Event) : s.order ≠ .reset :: rest := fun ho => hs (ho ▸ List.mem_cons_self)

/-- RESULT_SEQ counts the commits (10_state.md R24). -/
theorem step_resultSeq (h : step s = .next t) :
    t.resultSeq = s.resultSeq + BitVec.ofNat 64 (if s.commitsNext then 1 else 0) := by
  rcases step_result_cases h with ⟨hc, -, hq⟩ | ⟨hc, rfl⟩ | ⟨rest, ho⟩
  · simp [hc, hq]
  · simp [hc]
  · exact absurd ho (hs.head_ne rest)

theorem step_result_of_no_commit (h : step s = .next t) (hc : s.commitsNext = false) : t.result = s.result := by
  rcases step_result_cases h with ⟨-, hr, -⟩ | ⟨hc', -⟩ | ⟨rest, ho⟩
  · exact hr
  · simp [hc] at hc'
  · exact absurd ho (hs.head_ne rest)

end

theorem commitsIn_succ (n : Nat) {s t : State} (h : step s = .next t) :
    commitsIn (n + 1) s = (if s.commitsNext then 1 else 0) + commitsIn n t := by
  rw [commitsIn, h]

theorem run_resultSeq (n : Nat) {s t : State} (hs : s.noReset) (h : Host.Core.run Sys2Proof.core n s = .next t) :
    t.resultSeq = s.resultSeq + BitVec.ofNat 64 (commitsIn n s) := by
  induction n generalizing s with
  | zero => cases h; simp [commitsIn]
  | succ n ih =>
    obtain ⟨u, hu, hrun⟩ := run_succ_eq_next h
    rw [ih (hs.step hu) hrun, step_resultSeq hs hu, commitsIn_succ n hu, BitVec.ofNat_add, BitVec.add_assoc]

theorem run_result_of_no_commit {n m : Nat} (hm : m ≤ n) {s u : State} (hs : s.noReset) (hc : commitsIn n s = 0)
    (h : Host.Core.run Sys2Proof.core m s = .next u) : u.result = s.result := by
  induction m generalizing n s with
  | zero => cases h; rfl
  | succ m ih =>
    obtain ⟨v, hv, hrun⟩ := run_succ_eq_next h
    obtain ⟨n, rfl⟩ : ∃ k, n = k + 1 := Nat.exists_eq_add_one.2 (by omega)
    rw [commitsIn_succ n hv] at hc
    have hn : s.commitsNext = false := Bool.eq_false_iff.2 fun hn => by simp [hn] at hc
    rw [ih (Nat.le_of_succ_le_succ hm) (hs.step hv) (by omega) hrun, step_result_of_no_commit hs hv hn]

/-- Settles O50, by induction over the run: each step adds its commits to RESULT_SEQ, so an equal count below 2^64 commits is a
count of none. -/
theorem equalSequenceCountsMeanOneVector : Obligations.EqualSequenceCountsMeanOneVector := by
  intro s t n hs hrun
  have hseq := run_resultSeq n hs hrun
  refine ⟨hseq, fun hlt heq => ?_⟩
  have hzero : BitVec.ofNat 64 (commitsIn n s) = 0#64 := add_eq_left.1 (hseq.symm.trans heq)
  have hc : commitsIn n s = 0 := by
    have := congrArg BitVec.toNat hzero
    rwa [BitVec.toNat_ofNat, Nat.mod_eq_of_lt hlt] at this
  exact ⟨hc, fun m hm u hu => run_result_of_no_commit hm hs hc hu⟩

/-! ### The inputs of a block -/

/-- What a block is computed from (42_magnitude.md R70): the input registers, and what gives every SAMPLE element. -/
def State.blockInputs (s : State) : Ctrl × BitVec 32 × Word × Memory × Nat :=
  (s.ctrl, s.blockLen, s.sampleRate, s.mem, s.epoch)

theorem State.blockInputs_eq {s t : State} (h : t.blockInputs = s.blockInputs) :
    t.ctrl = s.ctrl ∧ t.blockLen = s.blockLen ∧ t.sampleRate = s.sampleRate ∧ ∀ i, t.sampleAt i = s.sampleAt i := by
  simp only [State.blockInputs, Prod.mk.injEq] at h
  obtain ⟨hctrl, hlen, hrate, hmem, hepoch⟩ := h
  exact ⟨hctrl, hlen, hrate, t.sampleAt_congr s hmem hepoch⟩

/-- No instruction reaches the inputs while BUSY (44_block_process.md R86). -/
theorem BusEffect.blockInputs_of_busy {s t : State} (h : BusEffect s t) (hb : s.status.busy = true) :
    t.blockInputs = s.blockInputs := by
  cases h with
  | ctrl hi | blockLen hi | sampleRate hi | sample hi => simp [hb] at hi
  | _ => rfl

theorem State.coreTurn_blockInputs (s : State) : s.coreTurn.blockInputs = s.blockInputs := by
  rcases s.coreTurn_cases with ⟨h, -⟩ | ⟨-, c, info, h, -⟩ | ⟨-, -, -, h⟩ <;> simp [h, State.blockInputs]

theorem step_blockInputs_of_busy {s t : State} (hs : s.noReset) (hb : s.status.busy = true) (h : step s = .next t) :
    t.blockInputs = s.blockInputs := by
  rcases step_exec s t h with ⟨-, rfl⟩ | ⟨rest, ho, -⟩ | ⟨r, rest, i, -, -, hx⟩
  · exact State.coreTurn_blockInputs _
  · exact absurd ho (hs.head_ne rest)
  · exact (exec_cases i _ t hx).blockInputs_of_busy hb

theorem run_blockInputs_of_busy (n : Nat) {s t : State} (hs : s.noReset)
    (hb : ∀ m < n, ∃ u, Host.Core.run Sys2Proof.core m s = .next u ∧ u.status.busy = true)
    (h : Host.Core.run Sys2Proof.core n s = .next t) : t.blockInputs = s.blockInputs := by
  induction n generalizing s with
  | zero => cases h; rfl
  | succ n ih =>
    obtain ⟨v, hv, hrun⟩ := run_succ_eq_next h
    have hbusy : s.status.busy = true := by
      obtain ⟨u, hu, hub⟩ := hb 0 (by omega)
      cases hu
      exact hub
    have hrest : ∀ m < n, ∃ u, Host.Core.run Sys2Proof.core m v = .next u ∧ u.status.busy = true := fun m hm =>
      run_succ m s v hv ▸ hb (m + 1) (by omega)
    rw [ih (hs.step hv) hrest hrun, step_blockInputs_of_busy hs hbusy hv]

/-- Settles O51, by induction over the run: a step from a BUSY state keeps `State.blockInputs`. -/
theorem inputsAreFrozenWhileBusy : Obligations.InputsAreFrozenWhileBusy := fun _ _ n hs hb hrun =>
  State.blockInputs_eq (run_blockInputs_of_busy n hs hb hrun)

/-! ### The bytes of the port -/

/-- An offset within a register is its byte lane (20_memory.md R35). -/
theorem addr_add_lane_toNat (a : BitVec 24) (j : Nat) (h8 : a.toNat % 8 = 0) (hj : j < 8) :
    (a + BitVec.ofNat 24 j).toNat = a.toNat + j := by
  rw [BitVec.toNat_add, BitVec.toNat_ofNat]; omega

/-- In the SAMPLE window the port shows the memory's bytes (20_memory.md R35). -/
theorem State.portByte_sample (s : State) (a : BitVec 24) (hlo : 0x10000 ≤ a.toNat) (hhi : a.toNat < 0x10000 + 8 * s.nMax) :
    s.portByte a = s.readByte a.toNat := by
  have hx := alignDown_toNat a
  have hsel : select s.nMax (a &&& 0xFFFFF8#24) = .sample ((a.toNat - 0x10000) / 8) :=
    select_eq_of_covers _ _ _ (by omega) ⟨by omega, by omega, by omega⟩
  have haddr : sampleAddr ((a.toNat - 0x10000) / 8) + a.toNat % 8 = a.toNat := by
    simp only [sampleAddr, sampleBase]; omega
  rw [State.portByte, hsel, State.readReg, State.sampleAt, byteLane_wordOfLanes _ _ (Nat.mod_lt _ (by decide)), haddr]

/-- Settles O20: an address splits into its register's offset and a byte lane, and a store while IDLE is
`State.writeSample`. -/
theorem thePortIsLittleEndian : Obligations.ThePortIsLittleEndian := by
  refine ⟨fun s a j h8 hj => ?_, State.portByte_sample, fun s i w hN hi hb => ?_⟩
  · have hx := addr_add_lane_toNat a j h8 hj
    have hreg : (a + BitVec.ofNat 24 j) &&& 0xFFFFF8#24 = a := by
      apply BitVec.eq_of_toNat_eq
      rw [alignDown_toNat]; omega
    have hlane : (a + BitVec.ofNat 24 j).toNat % 8 = j := by omega
    rw [State.portByte, hreg, hlane, byteLane]
  · have hw := exec_busWrite_of_select _ w s _ (elementAddr_aligned 0x10000 i rfl) (select_sample s.nMax i hN.2 hi)
    exact ⟨s.writeSample i w, exec_busWrite_idle _ w s _ hw hb, fun j => s.readByte_writeSample_inside i j w,
      fun a => s.readByte_writeSample_outside i a w⟩

/-! ### Accesses and BAD_ACCESS -/

/-- Settles O21: no register covers such an address. -/
theorem unmappedAccessOnlyFlags : Obligations.UnmappedAccessOnlyFlags := by
  intro s a w _ h8 hrange
  have hc : Reg.unmapped.covers s.nMax a.toNat := by
    simp only [Reg.covers]; omega
  exact ⟨execBusRead_unmapped a 3#2 s ((definedAccess_iff _ _).2 ⟨rfl, h8⟩) (select_eq_of_covers _ _ _ h8 hc),
    exec_busWrite_of_covers a w s .unmapped h8 hc⟩

/-- Settles O22: such an access is not the defined one. -/
theorem undefinedAccessOnlyFlags : Obligations.UndefinedAccessOnlyFlags := by
  intro s a size w h
  have hd : definedAccess a size = false := by simpa [definedAccess, imp_iff_not_or] using h
  exact ⟨execBusRead_undefined a size s hd, execBusWrite_undefined a size w s hd⟩

/-- Settles O23: undefined, unmapped and mapped reads in turn. -/
theorem busReadChangesOnlyRdataAndBadAccess : Obligations.BusReadChangesOnlyRdataAndBadAccess := by
  intro s a size
  have hbad : s.badRead = { s with rdata := 0#64, status := { s.status with badAccess := s.status.badAccess || true } } := by
    rw [Bool.or_true]; rfl
  cases hd : definedAccess a size with
  | false => exact ⟨0#64, true, hbad ▸ execBusRead_undefined a size s hd, by simp, fun _ => rfl, nofun⟩
  | true =>
    by_cases hu : select s.nMax a = .unmapped
    · exact ⟨0#64, true, hbad ▸ execBusRead_unmapped a size s hd hu, by simp [hu], fun _ => rfl, nofun⟩
    · refine ⟨s.readReg (select s.nMax a), false, ?_, by simp [hu], nofun, fun _ => rfl⟩
      rw [Bool.or_false]
      exact execBusRead_mapped a size s hd hu

/-- A read leaves what every register reads as. -/
@[simp] theorem State.readReg_setRdata (s : State) (v : Word) (r : Reg) : (s.setRdata v).readReg r = s.readReg r := by
  cases r <;> rfl

@[simp] theorem State.setRdata_setRdata (s : State) (v w : Word) : (s.setRdata v).setRdata w = s.setRdata w := rfl

/-- A defined read of a mapped register answers the register and nothing else (45_host_access.md R96). -/
theorem exec_busRead_eq_setRdata {s t : State} {a : BitVec 24} (h : exec (.busRead a 3#2) s = .next t)
    (hd : definedAccess a 3#2 = true) (hu : select s.nMax a ≠ .unmapped) :
    t = s.setRdata (s.readReg (select s.nMax a)) :=
  Host.Outcome.next.inj (h.symm.trans (execBusRead_mapped a 3#2 s hd hu))

/-- Settles O24: every defined read is a `State.setRdata`, and the last one stands. -/
theorem readsAreIdempotent : Obligations.ReadsAreIdempotent := by
  intro s t u v a b hda hua hdb hub hst htu huv
  obtain rfl := exec_busRead_eq_setRdata hst hda hua
  obtain rfl := exec_busRead_eq_setRdata htu hdb hub
  obtain rfl := exec_busRead_eq_setRdata huv hda hua
  simp

/-! ### The decoded instruction -/

/-- Settles O6, by evaluation of `step` at an access. -/
theorem stepRunsTheDecodedInstruction : Obligations.StepRunsTheDecodedInstruction := by
  intro s r rest i ho hd
  simp only [step, ho, hd]
  rfl

end Sys2Proof.Machine
end

section
/-! PROOFS. The encoding (30_encoding.md R47 to R56): the decoder undoes the encoder and the encoder the decoder, the fields of a
descriptor and the command words, and the assembler lines. -/

namespace Sys2Proof

/-! ### The decoder, one equation per kind of request -/

section
variable {d : BitVec 32} (w : Word)

theorem decode_reserved (hr : descReserved d ≠ 0#5) : decode ⟨d, w⟩ = .error .reservedField := if_pos hr

theorem decode_read (hr : descReserved d = 0#5) (hwe : descWE d = 0#1) :
    decode ⟨d, w⟩ = .ok (.busRead (descAddr d) (descSize d)) := by
  simp [decode, hr, hwe]

theorem decode_write (hr : descReserved d = 0#5) (hwe : descWE d = 1#1) :
    decode ⟨d, w⟩ = .ok (decodeWrite (descAddr d) (descSize d) w) := by
  simp [decode, hr, hwe]

end

/-- WE is bit [0] (R48). -/
theorem descWE_eq_ofBool (d : BitVec 32) : descWE d = BitVec.ofBool (d.getLsbD 0) := by
  apply BitVec.eq_of_getLsbD_eq
  intro i hi
  obtain rfl : i = 0 := by omega
  simp [descWE]

theorem descWE_eq_zero_iff (d : BitVec 32) : descWE d = 0#1 ↔ d.getLsbD 0 = false := by
  rw [descWE_eq_ofBool]
  cases d.getLsbD 0 <;> decide

theorem descWE_eq_one_iff (d : BitVec 32) : descWE d = 1#1 ↔ d.getLsbD 0 = true := by
  rw [descWE_eq_ofBool]
  cases d.getLsbD 0 <;> decide

/-- Everything the decoder can accept: a read or a write, with the reserved field 0. -/
theorem decode_eq_ok_cases {d : BitVec 32} {w : Word} {i : Instr} (h : decode ⟨d, w⟩ = .ok i) : descReserved d = 0#5 ∧
    ((descWE d = 0#1 ∧ i = .busRead (descAddr d) (descSize d)) ∨
     (descWE d = 1#1 ∧ i = decodeWrite (descAddr d) (descSize d) w)) := by
  by_cases hr : descReserved d = 0#5
  · refine ⟨hr, ?_⟩
    rcases BitVec.eq_zero_or_eq_one (descWE d) with hwe | hwe
    · rw [decode_read w hr hwe] at h
      exact .inl ⟨hwe, (Except.ok.inj h).symm⟩
    · rw [decode_write w hr hwe] at h
      exact .inr ⟨hwe, (Except.ok.inj h).symm⟩
  · rw [decode_reserved w hr] at h
    cases h

@[simp] theorem decode_descriptorOf_read (a : BitVec 24) (sz : BitVec 2) (w : Word) :
    decode ⟨descriptorOf a sz 0#1, w⟩ = .ok (.busRead a sz) := by
  rw [decode_read w (by simp) (by simp), descAddr_descriptorOf, descSize_descriptorOf]

@[simp] theorem decode_descriptorOf_write (a : BitVec 24) (sz : BitVec 2) (w : Word) :
    decode ⟨descriptorOf a sz 1#1, w⟩ = .ok (decodeWrite a sz w) := by
  rw [decode_write w (by simp) (by simp), descAddr_descriptorOf, descSize_descriptorOf]

/-! ### Writes and commands -/

@[simp] theorem decodeWrite_command (c : Command) : decodeWrite 0x000020#24 3#2 c.word = c.toInstr := by
  simp [decodeWrite]

@[simp] theorem encode_toInstr (c : Command) : encode c.toInstr = commandRequest c.word := by
  cases c <;> rfl

/-- A write is a command's, in the command's words, or it is left a BUS_WRITE (R47, R49, R53). -/
theorem decodeWrite_cases (a : BitVec 24) (sz : BitVec 2) (w : Word) :
    (∃ c : Command, a = 0x000020#24 ∧ sz = 3#2 ∧ w = c.word) ∨ decodeWrite a sz w = .busWrite a sz w := by
  by_cases hcmd : a = 0x000020#24 ∧ sz = 3#2
  · obtain ⟨rfl, rfl⟩ := hcmd
    cases hc : decodeCmd w with
    | some c => exact .inl ⟨c, rfl, rfl, decodeCmd_eq_some w c hc⟩
    | none => exact .inr (by simp [decodeWrite, hc])
  · exact .inr (if_neg hcmd)

/-- A well-formed BUS_WRITE is no command's (log 11). -/
theorem decodeWrite_of_wellFormed (a : BitVec 24) (sz : BitVec 2) (w : Word)
    (h : (Instr.busWrite a sz w).wellFormed = true) : decodeWrite a sz w = .busWrite a sz w := by
  rcases decodeWrite_cases a sz w with ⟨c, rfl, rfl, rfl⟩ | hw
  · cases c <;> exact absurd h (by decide)
  · exact hw

theorem decode_commandRequest (c : Command) : decode (commandRequest c.word) = .ok c.toInstr := by
  rw [commandRequest, decode_descriptorOf_write, decodeWrite_command]

/-- Whatever spelling the decoder chooses for a write, its words are the write's. -/
theorem encode_decodeWrite (a : BitVec 24) (sz : BitVec 2) (w : Word) :
    encode (decodeWrite a sz w) = ⟨descriptorOf a sz 1#1, w⟩ := by
  rcases decodeWrite_cases a sz w with ⟨c, rfl, rfl, rfl⟩ | hw
  · rw [decodeWrite_command, encode_toInstr, commandRequest]
  · rw [hw, encode]

/-- Settles O1, by the constructors: a command's words decode to the command, and a well-formed BUS_WRITE is no command's. -/
theorem decodeOfEncodeIsTheInstruction : Obligations.DecodeOfEncodeIsTheInstruction := by
  intro i hwf
  cases i with
  | busRead a sz => exact decode_descriptorOf_read a sz 0#64
  | busWrite a sz w => rw [encode, decode_descriptorOf_write, decodeWrite_of_wellFormed a sz w hwf]
  | nop => exact decode_commandRequest .nop
  | start => exact decode_commandRequest .start
  | clearStatus => exact decode_commandRequest .clearStatus

/-- Settles O2: an accepted descriptor has the reserved field 0, so its three other fields give it back. -/
theorem encodeOfDecodeIsTheRequest : Obligations.EncodeOfDecodeIsTheRequest := by
  rintro ⟨d, w⟩ i h
  refine ⟨decode_wellFormed _ _ h, ?_⟩
  obtain ⟨hr, ⟨hwe, rfl⟩ | ⟨hwe, rfl⟩⟩ := decode_eq_ok_cases h
  · have hbit : d.getLsbD 0 = false := (descWE_eq_zero_iff d).1 hwe
    rw [encode, ← hwe, descriptorOf_fields d hr]
    exact ⟨rfl, (if_neg (Bool.eq_false_iff.1 hbit)).symm⟩
  · have hbit : d.getLsbD 0 = true := (descWE_eq_one_iff d).1 hwe
    rw [encode_decodeWrite, ← hwe, descriptorOf_fields d hr]
    exact ⟨rfl, (if_pos hbit).symm⟩

/-! ### Command words -/

theorem decodeCmd_eq_some_iff (w : Word) (c : Command) : decodeCmd w = some c ↔ w = c.word :=
  ⟨decodeCmd_eq_some w c, fun h => h ▸ decodeCmd_word c⟩

/-- BAD_CMD, by the two fields of a CMD word (R49). -/
theorem decodeCmd_eq_none_iff (w : Word) : decodeCmd w = none ↔ cmdMbz w ≠ 0#56 ∨ 3 ≤ (cmdOp w).toNat := by
  unfold decodeCmd
  split_ifs with hmbz hnop hstart hclear
  · simp [hmbz]
  · simp [not_not.1 hmbz, hnop]
  · simp [not_not.1 hmbz, hstart]
  · simp [not_not.1 hmbz, hclear]
  · have hop : 3 ≤ (cmdOp w).toNat := by bv_omega
    simp [hop]

/-- Settles O4: a word decodes to a command just when it is the command's word, and to BAD_CMD by its two fields. -/
theorem onlyThreeCommandWordsAreLegal : Obligations.OnlyThreeCommandWordsAreLegal := fun w =>
  ⟨decodeCmd_eq_some_iff w .nop, decodeCmd_eq_some_iff w .start, decodeCmd_eq_some_iff w .clearStatus, decodeCmd_eq_none_iff w⟩

/-- Settles O5, by evaluation of the decoder at each of the ten requests. -/
theorem writtenOutWordsDecode : Obligations.WrittenOutWordsDecode :=
  ⟨rfl, rfl, rfl, rfl, rfl, rfl, rfl, rfl, rfl, rfl⟩

end Sys2Proof

namespace Sys2Proof.Machine

/-! ### The effect of a write -/

/-- The instruction a write decodes to has the effect of the BUS_WRITE of its operands, a command's included. -/
theorem exec_decodeWrite (a : BitVec 24) (sz : BitVec 2) (w : Word) (s : State) :
    exec (decodeWrite a sz w) s = exec (.busWrite a sz w) s := by
  rcases decodeWrite_cases a sz w with ⟨c, rfl, rfl, rfl⟩ | hw
  · rw [decodeWrite_command, execBusWrite_command _ c s (decodeCmd_word c)]
  · rw [hw]

/-- Settles O3: the decoder's three equations, and `exec_decodeWrite` for a write. -/
theorem descriptorFieldsSelectTheOperation : Obligations.DescriptorFieldsSelectTheOperation := by
  intro d w
  refine ⟨decode_reserved w, fun hr hbit => ?_, fun hr hbit => ?_⟩
  · exact decode_read w hr ((descWE_eq_zero_iff d).2 hbit)
  · exact ⟨_, decode_write w hr ((descWE_eq_one_iff d).2 hbit), exec_decodeWrite _ _ w⟩

/-! ### The assembler lines -/

theorem decode_rd (l : Loc) : decode (Line.rd l).request = .ok (.busRead l.addr 3#2) := by
  rw [Line.request, decode_descriptorOf_read]

theorem decode_wr (l : Loc) (v : Word) : decode (Line.wr l v).request = .ok (decodeWrite l.addr 3#2 v) := by
  rw [Line.request, decode_descriptorOf_write]

/-- A `wr` line of a command's word to CMD is the command (30_encoding.md R56). -/
theorem decode_wr_cmd (c : Command) : decode (Line.wr .cmd c.word).request = .ok c.toInstr := decode_commandRequest c

/-- Every `wr` line has the effect of its 8-byte BUS_WRITE. -/
theorem decode_wr_effect (l : Loc) (v : Word) :
    ∃ i, decode (Line.wr l v).request = .ok i ∧ ∀ s, exec i s = exec (.busWrite l.addr 3#2 v) s :=
  ⟨_, decode_wr l v, exec_decodeWrite l.addr 3#2 v⟩

theorem waitIdle_again (v : Word) : waitIdle.again [v] = v.getLsbD 0 := rfl

theorem rdvec_pass_result (k : Fin 88) : rdvec.pass[k.val + 1]? = some (.rd (.result k)) := by
  simp [rdvec, List.getElem?_append_left]

theorem rdvec_again_iff (vs : List Word) (h : vs.length = 90) : rdvec.again vs = true ↔ vs[0]? ≠ vs[89]? := by
  simp [rdvec, h]

/-- Settles O60: each line by the decoder, each location by the address map, each loop by its pass and its branch. -/
theorem assemblerLinesAreTheirAccesses : Obligations.AssemblerLinesAreTheirAccesses :=
  ⟨decode_rd, decode_wr_effect, fun l neg num den => decode_wr_effect l (f64Literal neg num den),
    ⟨decode_wr_cmd .start, decode_wr_cmd .nop, decode_wr_cmd .clearStatus⟩,
    fun _ => ⟨rfl, rfl, rfl, rfl, rfl, rfl, rfl, rfl, rfl⟩,
    fun nMax k => ⟨select_result nMax k, select_freq nMax k⟩,
    fun nMax i hN hi => select_sample nMax i hN.2 hi,
    fun _ => rfl,
    ⟨rfl, waitIdle_again, fun s => (waitIdle_again _).trans (s.status.pack_getLsbD 0)⟩,
    ⟨by simp [rdvec], rfl, by simp [rdvec], rdvec_pass_result, rdvec_again_iff⟩⟩

end Sys2Proof.Machine
end

section
/-! PROOFS. The ideal window (41_window.md R57 to R64), the worked examples of the ideal values, and what a completion leaves of the
inputs (R61). -/

namespace Sys2Proof.Machine

/-! ### What a completion leaves -/

@[simp] theorem State.takeInvalidBlock_readByte (s : State) (c : BitVec 4) (info : Word) (a : Nat) :
    (s.takeInvalidBlock c info).readByte a = s.readByte a := rfl

@[simp] theorem State.commit_readByte (s : State) (v : Vector Word 88) (a : Nat) :
    (s.commit v).readByte a = s.readByte a := rfl

/-- Settles O43: both outcomes of a completion, InvalidBlock and the commit, store no input and no sticky flag. -/
theorem completionLeavesInputsAndStickyFlags : Obligations.CompletionLeavesInputsAndStickyFlags := by
  intro f s
  rcases s.completeWith_cases f with ⟨-, h⟩ | ⟨_, -, -, h⟩ | ⟨-, -, h⟩
  · simp [h]
  · simp [h]
  · simp [h]

/-! ### The window -/

section
variable (sel : BitVec 2) (n i : ℕ)

theorem windowAlpha_add_windowBeta : windowAlpha sel + windowBeta sel = 1 := by
  rw [windowBeta, add_sub_cancel]

theorem windowBeta_nonneg : 0 ≤ windowBeta sel := by
  unfold windowBeta windowAlpha
  split <;> norm_num

/-- Hamming's ends (41_window.md R57). -/
theorem hamming_ends : windowAlpha 0#2 - windowBeta 0#2 = 8 / 100 := by
  norm_num [windowAlpha, windowBeta]

/-- Hann's ends (R58). -/
theorem hann_ends : windowAlpha 1#2 - windowBeta 1#2 = 0 := by
  norm_num [windowAlpha, windowBeta]

theorem windowCoeff_zero : windowCoeff sel n 0 = windowAlpha sel - windowBeta sel := by
  simp [windowCoeff]

/-- The angle of the mirrored element is 2π less the element's. -/
theorem windowCoeff_symm (hn : 2 ≤ n) (hi : i < n) : windowCoeff sel n i = windowCoeff sel n (n - 1 - i) := by
  have hcast : ((n - 1 - i : ℕ) : ℝ) = (n : ℝ) - 1 - i := by
    rw [Nat.cast_sub (by omega), Nat.cast_sub (by omega), Nat.cast_one]
  have hn0 : (n : ℝ) - 1 ≠ 0 := by
    have : (2 : ℝ) ≤ n := by exact_mod_cast hn
    linarith
  have hangle : 2 * Real.pi * ((n - 1 - i : ℕ) : ℝ) / ((n : ℝ) - 1) = 2 * Real.pi - 2 * Real.pi * i / ((n : ℝ) - 1) := by
    rw [hcast]
    field_simp
  rw [windowCoeff, windowCoeff, hangle, Real.cos_two_pi_sub]

theorem windowCoeff_last (hn : 2 ≤ n) : windowCoeff sel n (n - 1) = windowAlpha sel - windowBeta sel := by
  rw [windowCoeff_symm sel n (n - 1) hn (by omega), Nat.sub_self, windowCoeff_zero]

/-- The centre's angle is π. -/
theorem windowCoeff_centre (m : ℕ) (hm : 1 ≤ m) : windowCoeff sel (2 * m + 1) m = 1 := by
  have hm0 : (m : ℝ) ≠ 0 := Nat.cast_ne_zero.2 (by omega)
  have hangle : 2 * Real.pi * (m : ℝ) / (((2 * m + 1 : ℕ) : ℝ) - 1) = Real.pi := by
    push_cast
    field_simp
    ring
  rw [windowCoeff, hangle, Real.cos_pi, mul_neg_one, sub_neg_eq_add, windowAlpha_add_windowBeta]

/-- β is not negative, so the cosine's range gives the window's. -/
theorem windowCoeff_bounds : windowAlpha sel - windowBeta sel ≤ windowCoeff sel n i ∧ windowCoeff sel n i ≤ 1 := by
  have hβ := windowBeta_nonneg sel
  rw [← windowAlpha_add_windowBeta sel, windowCoeff]
  constructor
  · nlinarith [Real.cos_le_one (2 * Real.pi * i / ((n : ℝ) - 1))]
  · nlinarith [Real.neg_one_le_cos (2 * Real.pi * i / ((n : ℝ) - 1))]

theorem workingBlock_of_isZero (en : Bool) (xs : List Word) (h : isZero (xs.getD i 0#64) = true) :
    workingBlock en sel xs n i = 0 := by
  simp only [workingBlock, toReal_of_isZero _ h, zero_mul, ite_self]

theorem workingBlock_off (xs : List Word) : workingBlock false sel xs n i = toReal (xs.getD i 0#64) := rfl

end

/-- Settles O57, from the angles of the ends, the mirror and the centre, and the cosine's range. -/
theorem windowHasTheStatedShape : Obligations.WindowHasTheStatedShape := by
  refine ⟨windowCoeff_symm, fun sel n hn => ⟨windowCoeff_zero sel n, windowCoeff_last sel n hn⟩, hamming_ends, hann_ends,
    windowCoeff_centre, fun sel i hi => ?_, fun n i _ _ => ?_, fun n i _ _ => ?_, fun en sel xs n i hz => ?_,
    fun sel xs n i => workingBlock_off sel n i xs⟩
  · obtain rfl | rfl : i = 0 ∨ i = 1 := by omega
    · exact windowCoeff_zero sel 2
    · exact windowCoeff_last sel 2 le_rfl
  · exact hamming_ends ▸ windowCoeff_bounds 0#2 n i
  · exact hann_ends ▸ windowCoeff_bounds 1#2 n i
  · exact workingBlock_of_isZero sel n i en xs (by simpa [isZero] using hz)

/-! ### The worked examples -/

/-- The quarter's angle is π/2; the other elements are an end, the centre and the mirror. -/
theorem windowCoeff_five (sel : BitVec 2) : List.map (windowCoeff sel 5) [0, 1, 2, 3, 4] =
    [windowAlpha sel - windowBeta sel, windowAlpha sel, 1, windowAlpha sel, windowAlpha sel - windowBeta sel] := by
  have hquarter : windowCoeff sel 5 1 = windowAlpha sel := by
    have hangle : 2 * Real.pi * ((1 : ℕ) : ℝ) / (((5 : ℕ) : ℝ) - 1) = Real.pi / 2 := by push_cast; ring
    rw [windowCoeff, hangle, Real.cos_pi_div_two, mul_zero, sub_zero]
  have hthree : windowCoeff sel 5 3 = windowAlpha sel := (windowCoeff_symm sel 5 3 (by omega) (by omega)).trans hquarter
  have hfour : windowCoeff sel 5 4 = windowAlpha sel - windowBeta sel := windowCoeff_last sel 5 (by omega)
  simp only [List.map_cons, List.map_nil, windowCoeff_zero, hquarter, windowCoeff_centre sel 2 (by omega), hthree, hfour]

/-- The number a pattern denotes, by its sign, significand and scale (00_scope.md R10). -/
theorem toReal_of_parts {w : Word} {sign : Bool} {m e : ℕ} (hs : f64Sign w = sign) (hm : f64Significand w = m)
    (he : f64Scale w = e) : toReal w = (if sign then -1 else 1) * (m : ℝ) * (2 : ℝ) ^ ((e : ℤ) - 1075) := by
  rw [toReal, f64Value, hs, hm, he]
  cases sign <;> simp

/-- Two samples of opposite sign two apart: the magnitude is half the sine of half their angle. -/
theorem idealMagnitude_one_zero_minusOne_zero (x : ℕ → ℝ) (r f : ℝ) (h0 : x 0 = 1) (h1 : x 1 = 0) (h2 : x 2 = -1)
    (h3 : x 3 = 0) : idealMagnitude x 4 r f = |Real.sin (2 * Real.pi * f / r)| / 2 := by
  have hphase : phase r f 2 = -(2 * (2 * Real.pi * f / r)) := by simp only [phase]; push_cast; ring
  have hphase0 : phase r f 0 = 0 := by simp [phase]
  have hre : sumRe x 4 r f = 2 * Real.sin (2 * Real.pi * f / r) ^ 2 := by
    simp only [sumRe, Finset.sum_range_succ, Finset.sum_range_zero, h0, h1, h2, h3, hphase, hphase0, Real.cos_zero,
      Real.cos_neg, Real.cos_two_mul, Real.cos_sq']
    ring
  have him : sumIm x 4 r f = 2 * Real.sin (2 * Real.pi * f / r) * Real.cos (2 * Real.pi * f / r) := by
    simp only [sumIm, Finset.sum_range_succ, Finset.sum_range_zero, h0, h1, h2, h3, hphase, hphase0, Real.sin_zero,
      Real.sin_neg, Real.sin_two_mul]
    ring
  have hsq : sumRe x 4 r f ^ 2 + sumIm x 4 r f ^ 2 = (2 * Real.sin (2 * Real.pi * f / r)) ^ 2 := by
    rw [hre, him, mul_pow _ (Real.cos _), Real.cos_sq']
    ring
  rw [idealMagnitude, hsq, Real.sqrt_sq_eq_abs, abs_mul, abs_two]
  push_cast
  ring

/-- The block [1, 0, −1, 0] without a window at rate 110 (95_test_vectors.md V-M2a, V-M2c). -/
theorem idealNote_oneZeroMinusOneZero (k : Fin 88) :
    idealNote [0x3FF0000000000000#64, 0#64, 0xBFF0000000000000#64, 0#64] 4 0x405B800000000000#64 false 0#2 k =
      |Real.sin (2 * Real.pi * toReal (freq k) / 110)| / 2 := by
  have hzero : toReal 0#64 = 0 := toReal_of_isZero _ rfl
  have hone : toReal 0x3FF0000000000000#64 = 1 := by
    rw [toReal_of_parts (sign := false) (m := 2 ^ 52) (e := 1023) (by decide) (by decide) (by decide)]
    norm_num
  have hminusOne : toReal 0xBFF0000000000000#64 = -1 := by
    rw [toReal_of_parts (sign := true) (m := 2 ^ 52) (e := 1023) (by decide) (by decide) (by decide)]
    norm_num
  have hrate : toReal 0x405B800000000000#64 = 110 := by
    rw [toReal_of_parts (sign := false) (m := 110 * 2 ^ 46) (e := 1029) (by decide) (by decide) (by decide)]
    norm_num
  rw [idealNote, idealMagnitude_one_zero_minusOne_zero _ _ _ hone hzero hminusOne hzero, hrate, targetFreq]

theorem toReal_freq_zero : toReal (freq 0) = 55 / 2 := by
  rw [toReal_of_parts (sign := false) (m := 110 * 2 ^ 46) (e := 1027) (by decide) (by decide) (by decide)]
  norm_num

theorem toReal_freq_twelve : toReal (freq 12) = 55 := by
  rw [toReal_of_parts (sign := false) (m := 110 * 2 ^ 46) (e := 1028) (by decide) (by decide) (by decide)]
  norm_num

/-- Settles O59: the window of length 5, and the sine at a quarter and at half a turn. -/
theorem workedExamplesOfTheIdealValues : Obligations.WorkedExamplesOfTheIdealValues := by
  refine ⟨?_, ?_, ?_, ?_⟩
  · rw [windowCoeff_five, hamming_ends, windowAlpha, if_neg (by decide)]
  · rw [windowCoeff_five, hann_ends, windowAlpha, if_pos rfl]
  · have hquarter : 2 * Real.pi * (55 / 2) / 110 = Real.pi / 2 := by ring
    rw [idealNote_oneZeroMinusOneZero, toReal_freq_zero, hquarter, Real.sin_pi_div_two, abs_one]
  · have hhalf : 2 * Real.pi * 55 / 110 = Real.pi := by ring
    rw [idealNote_oneZeroMinusOneZero, toReal_freq_twelve, hhalf, Real.sin_pi, abs_zero, zero_div]

end Sys2Proof.Machine
end

section
/-! PROOFS. The per-frequency magnitude (42_magnitude.md R66 to R76): what it depends on, its values, the commit of an accurate and of
an all-zero block, and the properties of the ideal magnitude. -/

namespace Sys2Proof.Machine

/-! ### The machine's magnitude -/

/-- With WIN_EN = 0, WIN_SEL is not seen (R70). -/
theorem constrain_winSel_congr (f : Config.MagFn) (xs : List Word) (n : Nat) (r : Word) {en : Bool} {sel sel' : BitVec 2}
    (h : en = true → sel = sel') (k : Fin 88) : constrain f xs n r en sel k = constrain f xs n r en sel' k := by
  cases en with
  | false => rfl
  | true => rw [h rfl]

/-- Settles O37: `t` with the CTRL of `s` has the inputs of `s`, and its own CTRL gives it the same magnitudes. -/
theorem magnitudeIsAFunctionOfTheBlock : Obligations.MagnitudeIsAFunctionOfTheBlock := by
  intro f s t hn hr hen hsel hx k
  calc s.magnitudeWith f k
      = (t.setCtrl s.ctrl).magnitudeWith f k := congrFun (s.magnitudeWith_congr f (t.setCtrl s.ctrl) hn hr rfl hx) k
    _ = constrain f t.block t.blockSize t.sampleRate t.ctrl.winEn s.ctrl.winSel k := by rw [← hen]; rfl
    _ = t.magnitudeWith f k := constrain_winSel_congr f _ _ _ (hen ▸ hsel) k

/-- A pattern is a zero exactly if it is +0.0 or −0.0 (00_scope.md R10). -/
theorem isZero_iff_eq (w : Word) : isZero w = true ↔ w = 0x0000000000000000#64 ∨ w = 0x8000000000000000#64 := by
  simp [isZero]

theorem isFinite_of_isZero {w : Word} (h : isZero w = true) : isFinite w = true := by
  rcases (isZero_iff_eq w).1 h with rfl | rfl <;> decide

/-- R71: an all-zero block has every magnitude +0.0. -/
theorem State.magnitudeWith_of_zeros (f : Config.MagFn) (s : State) (h : ∀ i < s.blockSize, isZero (s.sampleAt i) = true)
    (k : Fin 88) : s.magnitudeWith f k = 0x0000000000000000#64 := by
  have hall : (s.block.take s.blockSize).all isZero = true := by
    rw [← s.block_length, List.take_length]
    simpa [State.block] using h
  exact if_pos hall

/-- R72: a finite magnitude has sign bit 0. -/
theorem State.magnitudeWith_sign (f : Config.MagFn) (s : State) (k : Fin 88) (h : isFinite (s.magnitudeWith f k) = true) :
    f64Sign (s.magnitudeWith f k) = false := constrain_sign _ _ _ _ _ _ _ h

/-- Settles O38: zeros by R71; sign bit 0 leaves neither −0.0 nor a negative number. -/
theorem magnitudesAreZeroOnZerosAndNeverNegative : Obligations.MagnitudesAreZeroOnZerosAndNeverNegative := by
  intro f s k
  refine ⟨fun hz => s.magnitudeWith_of_zeros f (fun i hi => (isZero_iff_eq _).2 (hz i hi)) k, fun hfin => ?_⟩
  have hsign := s.magnitudeWith_sign f k hfin
  exact ⟨hsign, fun hneg => absurd (hneg ▸ hsign) (by decide), f64Value_nonneg _ hsign⟩

/-! ### The commit -/

/-- A valid block whose magnitudes are all finite commits them (44_block_process.md R87, R90). -/
theorem State.completeWith_of_finite (f : Config.MagFn) (s : State) (hv : s.validate.1 = causeNone)
    (hfin : ∀ k, isFinite (s.magnitudeWith f k) = true) : s.completeWith f = s.commit (Vector.ofFn (s.magnitudeWith f)) :=
  s.completeWith_commit f hv ((s.firstBadNote_eq_none f).2 hfin)

/-- A block of the nominal envelope is valid (R73, 44_block_process.md R88). -/
theorem NominalEnvelope.validate {cyclesMax : ℝ} {s : State}
    (h : NominalEnvelope s.nMax cyclesMax s.block s.blockSize s.sampleRate) : s.validate.1 = causeNone := by
  obtain ⟨⟨h2, hN⟩, ⟨-, hsamples⟩, ⟨hrfin, hrpos⟩, -⟩ := h
  refine s.validate_none.2 ⟨h2, hN, (rateValid_iff _).2 ⟨hrfin, Rat.cast_pos.1 hrpos⟩, fun i hi => ?_⟩
  exact (hsamples _ (List.mem_map_of_mem (List.mem_range.2 hi))).1

/-- Settles O39: the envelope makes the block valid, and R74 makes its magnitudes finite and accurate. -/
theorem committedVectorIsAccurate : Obligations.CommittedVectorIsAccurate := by
  intro f s tolAbs cyclesMax hacc hsel henv
  have hmag := fun k => hacc s.block s.blockSize s.sampleRate s.ctrl.winEn s.ctrl.winSel k hsel henv
  rw [s.completeWith_of_finite f (NominalEnvelope.validate henv) fun k => (hmag k).1]
  refine ⟨rfl, fun k => ?_⟩
  rw [State.commit_result, State.commit_vector_getElem]
  exact hmag k

/-- What an accepted START leaves (44_block_process.md R84). -/
def State.started (s : State) : State := (s.setStatus s.status.started).setErrInfo 0#64

/-- START stores no sample. -/
@[simp] theorem State.started_sampleAt (s : State) (i : Nat) : s.started.sampleAt i = s.sampleAt i :=
  s.started.sampleAt_congr s rfl rfl i

/-- An access that carries START to an IDLE core starts it (R84). -/
theorem step_start {s : State} {rest : List Event} (hb : s.status.busy = false)
    (ho : s.order = .access ⟨0x00002007#32, 0x1#64⟩ :: rest) : step s = .next (s.setOrder rest).started := by
  rw [stepRunsTheDecodedInstruction s _ rest .start ho (by decide)]
  simp only [exec, execStart, hb, Bool.false_eq_true, if_false]
  rfl

/-- START of an IDLE core and the core's turn after it: COMPLETE on the started state (R84, R87). -/
theorem run_start_complete {s : State} {rest : List Event} (hb : s.status.busy = false)
    (ho : s.order = .access ⟨0x00002007#32, 0x1#64⟩ :: .core :: rest) :
    Host.Core.run Sys2Proof.core 2 s = .next (s.setOrder rest).started.complete := by
  have hcore := step_core (s.setOrder (.core :: rest)).started rest rfl
  rw [run_succ 1 _ _ (step_start hb ho), run_succ 0 _ _ hcore, State.coreTurn_busy _ rfl]
  rfl

/-- A valid all-zero block commits +0.0 for every note (R71). -/
theorem State.completeWith_of_zeros (f : Config.MagFn) (s : State) (hv : s.validate.1 = causeNone)
    (hz : ∀ i < s.blockSize, isZero (s.sampleAt i) = true) : s.completeWith f = s.commit (Vector.replicate 88 0#64) := by
  have hmag := s.magnitudeWith_of_zeros f hz
  have hvec : Vector.ofFn (s.magnitudeWith f) = Vector.replicate 88 0#64 := by
    ext k hk
    simp [hmag]
  rw [s.completeWith_of_finite f hv fun k => by rw [hmag k]; decide, hvec]

/-- Settles O42: START leaves the inputs, which are a valid block of zeros. -/
theorem allZeroBlockCommitsZeros : Obligations.AllZeroBlockCommitsZeros := by
  intro s rest hb ho h2 hN hrfin hrpos hz
  have hzero : ∀ i < s.blockSize, isZero ((s.setOrder rest).started.sampleAt i) = true := fun i hi => by
    rw [State.started_sampleAt]
    exact (isZero_iff_eq _).2 (hz i hi)
  have hvalid : (s.setOrder rest).started.validate.1 = causeNone :=
    (State.validate_none _).2 ⟨h2, hN, (rateValid_iff _).2 ⟨hrfin, hrpos⟩, fun i hi => isFinite_of_isZero (hzero i hi)⟩
  have hend := State.completeWith_of_zeros Config.rawMagnitude _ hvalid hzero
  exact ⟨_, (run_start_complete hb ho).trans (congrArg _ hend), rfl, rfl, rfl, rfl, rfl⟩

/-! ### The ideal magnitude -/

section
variable (x : ℕ → ℝ) (n i : ℕ) (r f c : ℝ)

/-- The defining sum as one complex number (R66). -/
theorem idealMagnitude_eq_norm : idealMagnitude x n r f =
    ‖∑ i ∈ Finset.range n, (x i : ℂ) * Complex.exp (phase r f i * Complex.I)‖ / n := by
  have hsum : ∑ i ∈ Finset.range n, (x i : ℂ) * Complex.exp (phase r f i * Complex.I) =
      (sumRe x n r f : ℂ) + sumIm x n r f * Complex.I := by
    simp only [sumRe, sumIm, Complex.ofReal_sum, Complex.ofReal_mul, Complex.ofReal_cos, Complex.ofReal_sin, Finset.sum_mul,
      ← Finset.sum_add_distrib, Complex.exp_mul_I]
    exact Finset.sum_congr rfl fun i _ => by ring
  rw [hsum, Complex.norm_add_mul_I, idealMagnitude]

/-- The triangle inequality: every factor of the sum has norm 1. -/
theorem idealMagnitude_le_mean_abs : idealMagnitude x n r f ≤ (∑ i ∈ Finset.range n, |x i|) / n := by
  rw [idealMagnitude_eq_norm]
  refine div_le_div_of_nonneg_right ((norm_sum_le _ _).trans_eq ?_) n.cast_nonneg
  exact Finset.sum_congr rfl fun i _ => by
    rw [norm_mul, Complex.norm_exp_ofReal_mul_I, mul_one, Complex.norm_real, Real.norm_eq_abs]

theorem idealMagnitude_le_one (hx : ∀ i < n, |x i| ≤ 1) : idealMagnitude x n r f ≤ 1 := by
  refine (idealMagnitude_le_mean_abs x n r f).trans (div_le_one_of_le₀ ?_ n.cast_nonneg)
  calc ∑ i ∈ Finset.range n, |x i| ≤ ∑ _i ∈ Finset.range n, (1 : ℝ) :=
        Finset.sum_le_sum fun i hi => hx i (Finset.mem_range.1 hi)
    _ = n := by simp

theorem idealMagnitude_of_zeros (hx : ∀ i < n, x i = 0) : idealMagnitude x n r f = 0 := by
  have hsum : ∑ i ∈ Finset.range n, |x i| = 0 :=
    Finset.sum_eq_zero fun i hi => by rw [hx i (Finset.mem_range.1 hi), abs_zero]
  have hle := idealMagnitude_le_mean_abs x n r f
  rw [hsum, zero_div] at hle
  exact le_antisymm hle (idealMagnitude_nonneg x n r f)

theorem phase_neg : phase r (-f) i = -phase r f i := by
  rw [phase, phase]
  ring

theorem sumRe_neg : sumRe x n r (-f) = sumRe x n r f := by
  simp only [sumRe, phase_neg, Real.cos_neg]

theorem sumIm_neg : sumIm x n r (-f) = -sumIm x n r f := by
  simp only [sumIm, phase_neg, Real.sin_neg, mul_neg, Finset.sum_neg_distrib]

theorem idealMagnitude_neg : idealMagnitude x n r (-f) = idealMagnitude x n r f := by
  rw [idealMagnitude, sumRe_neg, sumIm_neg, neg_sq, idealMagnitude]

/-- Every phase is a whole number of turns. -/
theorem idealMagnitude_of_integer_ratio (z : ℤ) (hz : f / r = z) :
    idealMagnitude x n r f = |∑ i ∈ Finset.range n, x i| / n := by
  have hphase : ∀ i : ℕ, phase r f i = ((-(z * i) : ℤ) : ℝ) * (2 * Real.pi) := fun i => by
    push_cast
    rw [← hz, phase]
    ring
  have hre : sumRe x n r f = ∑ i ∈ Finset.range n, x i := by
    simp only [sumRe, hphase, Real.cos_int_mul_two_pi, mul_one]
  have him : sumIm x n r f = 0 := Finset.sum_eq_zero fun i _ => by
    rw [hphase, mul_left_comm, ← Int.cast_ofNat, ← mul_assoc, ← Int.cast_mul, Real.sin_int_mul_pi, mul_zero]
  rw [idealMagnitude, hre, him, zero_pow two_ne_zero, add_zero, Real.sqrt_sq_eq_abs]

/-- The law of cosines for the two terms of the sum. -/
theorem idealMagnitude_two : idealMagnitude x 2 r f =
    Real.sqrt (x 0 ^ 2 + x 1 ^ 2 + 2 * x 0 * x 1 * Real.cos (2 * Real.pi * f / r)) / 2 := by
  have hphase0 : phase r f 0 = 0 := by simp [phase]
  have hphase1 : phase r f 1 = -(2 * Real.pi * f / r) := by
    rw [phase, Nat.cast_one]
    ring
  have hre : sumRe x 2 r f = x 0 + x 1 * Real.cos (2 * Real.pi * f / r) := by
    simp [sumRe, Finset.sum_range_succ, hphase0, hphase1]
  have him : sumIm x 2 r f = -(x 1 * Real.sin (2 * Real.pi * f / r)) := by
    simp [sumIm, Finset.sum_range_succ, hphase0, hphase1]
  have hsq : sumRe x 2 r f ^ 2 + sumIm x 2 r f ^ 2 =
      x 0 ^ 2 + x 1 ^ 2 + 2 * x 0 * x 1 * Real.cos (2 * Real.pi * f / r) := by
    rw [hre, him]
    linear_combination x 1 ^ 2 * Real.sin_sq_add_cos_sq (2 * Real.pi * f / r)
  rw [idealMagnitude, hsq, Nat.cast_ofNat]

/-- The cosine of the doubled angle makes the closed form a square. -/
theorem idealMagnitude_one_one (h0 : x 0 = 1) (h1 : x 1 = 1) : idealMagnitude x 2 r f = |Real.cos (Real.pi * f / r)| := by
  have hdouble : 2 * Real.pi * f / r = 2 * (Real.pi * f / r) := by ring
  have hsq : (1 : ℝ) ^ 2 + 1 ^ 2 + 2 * 1 * 1 * Real.cos (2 * Real.pi * f / r) = (2 * Real.cos (Real.pi * f / r)) ^ 2 := by
    rw [hdouble, Real.cos_two_mul]
    ring
  rw [idealMagnitude_two, h0, h1, hsq, Real.sqrt_sq_eq_abs, abs_mul, abs_two, mul_div_cancel_left₀ _ two_ne_zero]

theorem idealMagnitude_smul : idealMagnitude (fun i => c * x i) n r f = |c| * idealMagnitude x n r f := by
  have hre : sumRe (fun i => c * x i) n r f = c * sumRe x n r f := by
    simp only [sumRe, Finset.mul_sum, mul_assoc]
  have him : sumIm (fun i => c * x i) n r f = c * sumIm x n r f := by
    simp only [sumIm, Finset.mul_sum, mul_assoc]
  rw [idealMagnitude, hre, him, mul_pow, mul_pow, ← mul_add, Real.sqrt_mul (sq_nonneg c), Real.sqrt_sq_eq_abs, mul_div_assoc,
    idealMagnitude]

/-- Every phase tends to 0 as the rate grows. -/
theorem tendsto_phase : Filter.Tendsto (fun r => phase r f i) Filter.atTop (nhds 0) := by
  have hfrac : Filter.Tendsto (fun r : ℝ => (i : ℝ) / r) Filter.atTop (nhds 0) :=
    tendsto_const_nhds.div_atTop Filter.tendsto_id
  simpa only [phase, mul_zero] using hfrac.const_mul (-2 * Real.pi * f)

theorem tendsto_sumRe : Filter.Tendsto (fun r => sumRe x n r f) Filter.atTop (nhds (∑ i ∈ Finset.range n, x i)) := by
  refine tendsto_finsetSum _ fun i _ => ?_
  simpa using ((Real.continuous_cos.tendsto 0).comp (tendsto_phase i f)).const_mul (x i)

theorem tendsto_sumIm : Filter.Tendsto (fun r => sumIm x n r f) Filter.atTop (nhds 0) := by
  rw [← Finset.sum_const_zero (s := Finset.range n)]
  refine tendsto_finsetSum _ fun i _ => ?_
  simpa using ((Real.continuous_sin.tendsto 0).comp (tendsto_phase i f)).const_mul (x i)

theorem tendsto_idealMagnitude : Filter.Tendsto (fun r => idealMagnitude x n r f) Filter.atTop
    (nhds (|∑ i ∈ Finset.range n, x i| / n)) := by
  have hsq := ((tendsto_sumRe x n f).pow 2).add ((tendsto_sumIm x n f).pow 2)
  rw [zero_pow two_ne_zero, add_zero] at hsq
  rw [← Real.sqrt_sq_eq_abs]
  exact hsq.sqrt.div_const n

end

/-- Settles O58, one property after the other. -/
theorem idealMagnitudeHasTheStatedProperties : Obligations.IdealMagnitudeHasTheStatedProperties :=
  ⟨idealMagnitude_nonneg, fun x n r f _ => idealMagnitude_le_mean_abs x n r f,
    fun x n r f _ hx => idealMagnitude_le_one x n r f hx, idealMagnitude_of_zeros,
    fun x n r f => ⟨idealMagnitude_neg x n r f, by rw [neg_sq, idealMagnitude]⟩, idealMagnitude_of_integer_ratio,
    idealMagnitude_two, idealMagnitude_one_one, idealMagnitude_smul, tendsto_idealMagnitude⟩

end Sys2Proof.Machine
end

section
/-! PROOFS. The FREQ ROM (43_note_map.md R79 to R82): what its table computes, and how far it is from the ideal frequencies. -/

namespace Sys2Proof.Machine

/-! ### The table, as integers over 2^52 -/

theorem freqScaled_strictMono : StrictMono freqScaled :=
  Fin.strictMono_iff_lt_succ.2 (by decide)

/-- An octave up, the exponent rises by one and the fraction field stays (R82). -/
theorem freq_octave : ∀ (j : Fin 88) (h : j.val + 12 < 88),
    freqScaled ⟨j.val + 12, h⟩ = 2 * freqScaled j ∧ f64Frac (freq ⟨j.val + 12, h⟩) = f64Frac (freq j) := by
  decide

/-- The relative error of 2^-53 around F(k) = (55/2) · 2^(k/12), with the twelfth root raised away: over the common denominator only
integers are left. -/
theorem freqScaled_pow_bounds : ∀ k : Fin 88,
    ((2 ^ 53 - 1) * 55) ^ 12 * 2 ^ k.val ≤ (4 * freqScaled k) ^ 12 ∧
    (4 * freqScaled k) ^ 12 ≤ ((2 ^ 53 + 1) * 55) ^ 12 * 2 ^ k.val := by
  decide

/-! ### The numbers the table denotes -/

theorem f64Value_freq_strictMono : StrictMono fun k => f64Value (freq k) := by
  intro j k hjk
  have h : (freqScaled j : ℚ) < freqScaled k := by exact_mod_cast freqScaled_strictMono hjk
  simp only [f64Value_freq]
  gcongr

theorem f64Value_freq_of_scaled {k : Fin 88} {m : ℕ} (h : 2 * freqScaled k = m * 2 ^ 52) : f64Value (freq k) = m / 2 := by
  have hq : 2 * (freqScaled k : ℚ) = m * 2 ^ 52 := by exact_mod_cast h
  rw [f64Value_freq]
  linarith

theorem f64Value_freq_octave (j : Fin 88) (h : j.val + 12 < 88) :
    f64Value (freq ⟨j.val + 12, h⟩) = 2 * f64Value (freq j) := by
  rw [f64Value_freq, f64Value_freq, (freq_octave j h).1]
  push_cast
  ring

theorem toReal_freq (k : Fin 88) : toReal (freq k) = freqScaled k / 2 ^ 52 := by
  rw [toReal, f64Value_freq]
  push_cast
  rfl

/-! ### The ideal frequencies -/

theorem idealFreq_pos (k : Fin 88) : 0 < idealFreq k := by
  unfold idealFreq
  positivity

theorem two_mul_idealFreq_pow_twelve (k : Fin 88) : (2 * idealFreq k) ^ 12 = 55 ^ 12 * 2 ^ k.val := by
  have hroot : ((2 : ℝ) ^ ((k.val : ℝ) / 12)) ^ 12 = 2 ^ k.val := by
    rw [← Real.rpow_mul_natCast two_pos.le, ← Real.rpow_natCast]
    norm_num
  have hdouble : 2 * idealFreq k = 55 * 2 ^ ((k.val : ℝ) / 12) := by
    rw [idealFreq]
    ring
  rw [hdouble, mul_pow, hroot]

theorem mul_idealFreq_pow_twelve (a : ℕ) (k : Fin 88) :
    (a * (2 * idealFreq k)) ^ 12 = (((a * 55) ^ 12 * 2 ^ k.val : ℕ) : ℝ) := by
  rw [mul_pow, two_mul_idealFreq_pow_twelve]
  push_cast
  ring

/-- A multiple of F(k) is compared with an integer by their twelfth powers, which are integers both. -/
theorem mul_idealFreq_le {a s : ℕ} {k : Fin 88} (h : (a * 55) ^ 12 * 2 ^ k.val ≤ s ^ 12) : a * (2 * idealFreq k) ≤ s := by
  refine le_of_pow_le_pow_left₀ (n := 12) (by decide) s.cast_nonneg ?_
  rw [mul_idealFreq_pow_twelve]
  exact_mod_cast h

theorem le_mul_idealFreq {a s : ℕ} {k : Fin 88} (h : s ^ 12 ≤ (a * 55) ^ 12 * 2 ^ k.val) : s ≤ a * (2 * idealFreq k) := by
  have hpos := idealFreq_pos k
  refine le_of_pow_le_pow_left₀ (n := 12) (by decide) (by positivity) ?_
  rw [mul_idealFreq_pow_twelve]
  exact_mod_cast h

theorem freq_accurate (k : Fin 88) : |toReal (freq k) - idealFreq k| ≤ 1 / 2 ^ 53 * idealFreq k := by
  have hlo := mul_idealFreq_le (freqScaled_pow_bounds k).1
  have hhi := le_mul_idealFreq (freqScaled_pow_bounds k).2
  push_cast at hlo hhi
  rw [toReal_freq, abs_sub_le_iff]
  constructor <;> linarith

/-- Settles O56: order, anchors and octaves from the table's integers, the top by computing the literal, and the accuracy from the
twelfth powers. -/
theorem romMatchesTheIdealFrequencies : Obligations.RomMatchesTheIdealFrequencies := by
  refine ⟨fun j k hjk => f64Value_freq_strictMono hjk, ?_, ?_, ?_, by decide, freq_accurate⟩
  · exact f64Value_freq_of_scaled (m := 55) (by decide)
  · rw [f64Value_freq_of_scaled (m := 880) (by decide)]
    norm_num
  · rintro j ⟨_, hk⟩ rfl
    exact ⟨f64Value_freq_octave j hk, (freq_octave j hk).2⟩

end Sys2Proof.Machine
end

section
/-! PROOFS. The block sequencer (44_block_process.md R84 to R94): START, the checks, the commit, and the end of every block. -/

namespace Sys2Proof.Machine

/-! ### START and the core's turn -/

theorem execStart_idle {s : State} (hb : s.status.busy = false) : execStart s = .next s.started := by
  simp [execStart, hb, State.started]

theorem execStart_busy {s : State} (hb : s.status.busy = true) : execStart s = .next s.flagOverrun := by
  simp [execStart, hb]

/-- Settles O29: the two branches of START, and the CMD write that carries it. -/
theorem startIsAcceptedWhileIdle : Obligations.StartIsAcceptedWhileIdle := fun s =>
  ⟨execStart_idle, execStart_busy, execBusWrite_command _ .start s (by decide)⟩

/-- Settles O7, by the head of the order and BUSY. -/
theorem coreTurnCompletesExactlyWhileBusy : Obligations.CoreTurnCompletesExactlyWhileBusy := by
  refine fun s rest => ⟨fun ho hb => ?_, fun ho hb => ?_, fun ho hb => ?_, fun ho hb => ?_⟩
  · rw [step_core s rest ho, (s.setOrder rest).coreTurn_busy hb]; rfl
  · rw [step_core s rest ho, (s.setOrder rest).coreTurn_idle hb]; rfl
  · rw [step_empty s ho, s.coreTurn_busy hb]
  · rw [step_empty s ho, s.coreTurn_idle hb]

/-! ### Every block ends -/

/-- No instruction ends a block in progress (10_state.md R15). -/
theorem BusEffect.busy_of_busy {s t : State} (h : BusEffect s t) (hb : s.status.busy = true) : t.status.busy = true := by
  cases h with
  | started hi => simp [hb] at hi
  | _ => exact hb

/-- COMPLETE leaves the core IDLE, whatever the outcome (R87). -/
theorem State.completeWith_ends_idle (f : Config.MagFn) (s : State) : (s.completeWith f).status.busy = false := by
  rcases s.completeWith_cases f with ⟨-, h⟩ | ⟨_, -, -, h⟩ | ⟨-, -, h⟩ <;> rw [h] <;> rfl

theorem State.coreTurn_ends_idle (s : State) : s.coreTurn.status.busy = false := by
  rcases s.coreTurn_cases with ⟨h, hb⟩ | ⟨hb, -⟩ | ⟨hb, -⟩
  · rw [h, hb]
  · rw [s.coreTurn_busy hb]; exact s.completeWith_ends_idle _
  · rw [s.coreTurn_busy hb]; exact s.completeWith_ends_idle _

theorem run_one {s t : State} (h : step s = .next t) : Host.Core.run Sys2Proof.core 1 s = .next t := run_succ 0 s t h

theorem State.requestsWellFormed.step {s t : State} (hs : s.requestsWellFormed) (h : step s = .next t) :
    t.requestsWellFormed := fun r hr => hs r (List.mem_of_mem_tail (step_order_eq h ▸ hr))

/-- A well-formed access at the head of the order is taken, and a BUSY core stays BUSY. -/
theorem step_access_busy {s : State} {r : Request} {rest : List Event} (hb : s.status.busy = true)
    (ho : s.order = .access r :: rest) (hr : descReserved r.descriptor = 0#5) :
    ∃ t, step s = .next t ∧ t.status.busy = true := by
  obtain ⟨i, hi⟩ := decode_total r hr
  obtain ⟨t, hx, he⟩ := exec_effect i (s.setOrder rest)
  exact ⟨t, (stepRunsTheDecodedInstruction s r rest i ho hi).trans hx, he.busy_of_busy hb⟩

/-- Settles O55, by induction over the order: a turn of the core ends the block, an access leaves a BUSY core one event nearer. -/
theorem everyBlockEnds : Obligations.EveryBlockEnds := by
  intro s hb hs hw
  induction ho : s.order generalizing s with
  | nil => exact ⟨1, by simp, _, run_one (step_empty s ho), s.coreTurn_ends_idle⟩
  | cons e rest ih =>
    cases e with
    | core => exact ⟨1, by simp, _, run_one (step_core s rest ho), State.coreTurn_ends_idle _⟩
    | reset => exact absurd ho (hs.head_ne rest)
    | access r =>
      obtain ⟨u, hu, hub⟩ := step_access_busy hb ho (hw r (ho ▸ List.mem_cons_self))
      have huo : u.order = rest := by rw [step_order_eq hu, ho, List.tail_cons]
      obtain ⟨n, hn, t, ht, htb⟩ := ih u hub (hs.step hu) (hw.step hu) huo
      exact ⟨n + 1, by simpa using hn, t, (run_succ n s u hu).trans ht, htb⟩

/-! ### Accesses while BUSY -/

/-- Settles O26: each protected register by the address map, CMD by its command words, a read by the register it selects. -/
theorem protectedWritesAreDroppedWhileBusy : Obligations.ProtectedWritesAreDroppedWhileBusy := by
  intro s w hb hN
  refine ⟨?_, ?_, ?_, ?_, fun a hd hu => ?_⟩
  · rintro _ (rfl | rfl | rfl | ⟨i, hi, rfl⟩)
    · exact exec_busWrite_busy _ w s _ (exec_busWrite_of_covers _ w s .ctrl rfl rfl) hb
    · exact exec_busWrite_busy _ w s _ (exec_busWrite_of_covers _ w s .blockLen rfl rfl) hb
    · exact exec_busWrite_busy _ w s _ (exec_busWrite_of_covers _ w s .sampleRate rfl rfl) hb
    · have hsel := select_sample s.nMax i hN.2 hi
      have h8 := elementAddr_aligned 0x10000 i rfl
      exact exec_busWrite_busy _ w s _ (exec_busWrite_of_select _ w s (.sample i) h8 hsel) hb
  · exact execBusWrite_command _ .nop s (by decide)
  · exact (execBusWrite_command _ .start s (by decide)).trans (execStart_busy hb)
  · exact execBusWrite_command _ .clearStatus s (by decide)
  · exact execBusRead_mapped a 3#2 s hd hu

/-! ### validate -/

section
variable {s : State}

theorem State.validate_lenZero (h : s.blockSize = 0) : s.validate = (causeLenZero, 0#64) := if_pos h

theorem State.validate_lenOne (h : s.blockSize = 1) : s.validate = (causeLenOne, 0#64) := by
  rw [State.validate, if_neg (by omega), if_pos h]

theorem State.validate_lenOver (h2 : 2 ≤ s.blockSize) (hN : s.nMax < s.blockSize) :
    s.validate = (causeLenOver, 0#64) := by
  rw [State.validate, if_neg (by omega), if_neg (by omega), if_pos hN]

variable (h2 : 2 ≤ s.blockSize) (hN : s.blockSize ≤ s.nMax) (hr : rateValid s.sampleRate = true)
include h2 hN hr

theorem State.validate_badSample {i : Nat} (hi : s.firstBadSample = some i) :
    s.validate = (causeSampleNonfinite, BitVec.ofNat 64 i) := by
  rw [State.validate, if_neg (by omega), if_neg (by omega), if_neg (by omega), hr, hi]; rfl

theorem State.validate_ok (hi : s.firstBadSample = none) : s.validate = (causeNone, 0#64) := by
  rw [State.validate, if_neg (by omega), if_neg (by omega), if_neg (by omega), hr, hi]; rfl

end

/-- A sample at an index of N or more is not read (R88). -/
theorem State.validate_writeSample (s : State) (i : Nat) (w : Word) (hi : s.blockSize ≤ i) :
    (s.writeSample i w).validate = s.validate :=
  State.validate_congr _ s rfl rfl rfl fun j (hj : j < s.blockSize) => s.sampleAt_writeSample_other i j w (by omega)

/-- Settles O33, cause by cause in the order of R88. -/
theorem validateAnswersTheFirstCause : Obligations.ValidateAnswersTheFirstCause := by
  intro s
  refine ⟨State.validate_lenZero, State.validate_lenOne, State.validate_lenOver, fun h2 hN hr => ?_,
    fun h2 hN hfin hpos => ?_, s.validate_writeSample⟩
  · exact s.validate_rateInvalid h2 hN (Bool.eq_false_iff.2 (mt (rateValid_iff _).1 hr))
  · have hr := (rateValid_iff _).2 ⟨hfin, hpos⟩
    exact ⟨fun i hi hbad hlow => State.validate_badSample h2 hN hr ((s.firstBadSample_eq_some i).2 ⟨hi, hbad, hlow⟩),
      fun hall => State.validate_ok h2 hN hr (s.firstBadSample_eq_none.2 hall)⟩

/-! ### The check of the result, and the commit -/

/-- The first note found non-finite is the lowest one (R89). -/
theorem State.firstBadNote_of_lowest (f : Config.MagFn) (s : State) (k : Fin 88) (hk : isFinite (s.magnitudeWith f k) = false)
    (hlow : ∀ j < k, isFinite (s.magnitudeWith f j) = true) : s.firstBadNote f = some k := by
  refine List.find?_eq_some_iff_getElem.2 ⟨by simp [hk], k.val, by simp, by simp, fun j hj => ?_⟩
  simpa using hlow ⟨j, hj.trans k.isLt⟩ hj

/-- Settles O35: the lowest non-finite note is the one the check finds; in the envelope R74 leaves it none to find. -/
theorem nonFiniteMagnitudeFailsTheBlock : Obligations.NonFiniteMagnitudeFailsTheBlock := by
  refine ⟨fun f s k hv hk hlow => ?_, fun f s tolAbs cyclesMax hacc hsel henv => ?_⟩
  · exact s.completeWith_badNote f k hv (s.firstBadNote_of_lowest f k hk hlow)
  · have hfin : ∀ k, isFinite (s.magnitudeWith f k) = true := fun k => (hacc _ _ _ _ _ k hsel henv).1
    rw [s.completeWith_of_finite f (NominalEnvelope.validate henv) hfin]
    rfl

/-- The events that wait are no input of the magnitudes (42_magnitude.md R70). -/
@[simp] theorem State.setOrder_magnitudeWith (f : Config.MagFn) (s : State) (rest : List Event) :
    (s.setOrder rest).magnitudeWith f = s.magnitudeWith f := rfl

/-- RESULT_SEQ counts modulo 2^64 (10_state.md R24). -/
theorem word_add_one (w : Word) : w + 1#64 = BitVec.ofNat 64 ((w.toNat + 1) % 2 ^ 64) :=
  BitVec.eq_of_toNat_eq (by simp [BitVec.toNat_add])

/-- A commit by its fields, RESULT_SEQ by its number (R90). -/
theorem State.commit_eq (s : State) (v : Vector Word 88) : s.commit v = { s with
    result := v
    resultSeq := BitVec.ofNat 64 ((s.resultSeq.toNat + 1) % 2 ^ 64)
    status := { s.status with done := true, busy := false } } := by
  rw [← word_add_one]; rfl

/-- Settles O36: the core's turn is COMPLETE, which commits the magnitudes. -/
theorem commitReplacesTheWholeVector : Obligations.CommitReplacesTheWholeVector := by
  intro s rest hb ho hv hfin
  refine ⟨Vector.ofFn (s.magnitudeWith Config.rawMagnitude), fun k => ?_, ?_⟩
  · rw [State.commit_vector_getElem]
    exact ⟨rfl, hfin k, s.magnitudeWith_sign _ k (hfin k)⟩
  · rw [step_core s rest ho, (s.setOrder rest).coreTurn_busy hb, State.complete,
      State.completeWith_of_finite _ (s.setOrder rest) hv hfin, State.setOrder_magnitudeWith, State.commit_eq]
    rfl

/-! ### Blocks with the same inputs -/

/-- States of one verdict and one vector of magnitudes end their blocks the same way (R92). -/
theorem State.completeWith_agree (f : Config.MagFn) {s t : State} (hv : s.validate = t.validate)
    (hm : s.magnitudeWith f = t.magnitudeWith f) :
    (∃ c info, s.completeWith f = s.takeInvalidBlock c info ∧ t.completeWith f = t.takeInvalidBlock c info) ∨
    (∃ v, s.completeWith f = s.commit v ∧ t.completeWith f = t.commit v) := by
  have hn : s.firstBadNote f = t.firstBadNote f := by simp only [State.firstBadNote, hm]
  rcases s.completeWith_cases f with ⟨hbad, hs⟩ | ⟨k, hok, hk, hs⟩ | ⟨hok, hk, hs⟩
  · exact .inl ⟨_, _, hs, t.completeWith_invalid f _ _ hv.symm hbad⟩
  · exact .inl ⟨_, _, hs, t.completeWith_badNote f k (hv ▸ hok) (hn ▸ hk)⟩
  · exact .inr ⟨_, hs, hm ▸ t.completeWith_commit f (hv ▸ hok) (hn ▸ hk)⟩

/-- Settles O30: OVERRUN is no input of the block, so both completions have one outcome. -/
theorem startWhileBusyLeavesTheBlock : Obligations.StartWhileBusyLeavesTheBlock := by
  intro s hb
  refine ⟨s.flagOverrun, execStart_busy hb, rfl, ?_⟩
  rcases State.completeWith_agree Config.rawMagnitude (s := s.flagOverrun) (t := s) rfl rfl with
    ⟨c, info, hflag, hs⟩ | ⟨v, hflag, hs⟩
  · rw [State.complete, State.complete, hflag, hs]; rfl
  · rw [State.complete, State.complete, hflag, hs]; rfl

/-- Settles O40: the inputs decide the verdict and the magnitudes, and these the outcome. -/
theorem sameBlockGivesTheSameVector : Obligations.SameBlockGivesTheSameVector := by
  intro s t hN hn hr hen hsel hx
  have hv : s.validate = t.validate := s.validate_congr t hN hn hr hx
  have hm : s.magnitudeWith Config.rawMagnitude = t.magnitudeWith Config.rawMagnitude :=
    funext (magnitudeIsAFunctionOfTheBlock _ s t hn hr hen hsel hx)
  unfold State.complete
  rcases State.completeWith_agree _ hv hm with ⟨c, info, hs, ht⟩ | ⟨v, hs, ht⟩ <;> rw [hs, ht]
  · exact ⟨fun hdone h0 => absurd (hdone.symm.trans h0) nofun, fun _ _ _ => ⟨rfl, rfl, rfl⟩⟩
  · exact ⟨fun _ _ _ => ⟨rfl, rfl⟩, fun herr h0 => absurd (herr.symm.trans h0) nofun⟩

/-- A run after a run. -/
theorem run_add {n : Nat} (m : Nat) {s t : State} (h : Host.Core.run Sys2Proof.core n s = .next t) :
    Host.Core.run Sys2Proof.core (n + m) s = Host.Core.run Sys2Proof.core m t := by
  induction n generalizing s with
  | zero => cases h; rw [Nat.zero_add]
  | succ n ih =>
    obtain ⟨u, hu, hrun⟩ := run_succ_eq_next h
    rw [Nat.succ_add, run_succ _ _ _ hu, ih hrun]

/-- What START and COMPLETE leave of an IDLE state with a valid block and finite magnitudes (R84, R90). -/
def State.blockCommitted (s : State) (rest : List Event) : State :=
  (s.setOrder rest).started.commit (Vector.ofFn (s.magnitudeWith Config.rawMagnitude))

theorem run_blockCommitted {s : State} {rest : List Event} (hb : s.status.busy = false)
    (ho : s.order = .access ⟨0x00002007#32, 0x1#64⟩ :: .core :: rest) (hv : s.validate.1 = causeNone)
    (hfin : ∀ k, isFinite (s.magnitudeWith Config.rawMagnitude k) = true) :
    Host.Core.run Sys2Proof.core 2 s = .next (s.blockCommitted rest) :=
  (run_start_complete hb ho).trans (congrArg _ (State.completeWith_of_finite _ (s.setOrder rest).started hv hfin))

/-- Settles O41: START and COMPLETE lead to an IDLE state with the inputs they had, so the second pair commits as the first. -/
theorem secondStartCommitsTheSameVector : Obligations.SecondStartCommitsTheSameVector := by
  intro s rest hb ho hv hfin
  have hfirst := run_blockCommitted hb ho hv hfin
  have hsecond := run_blockCommitted (s := s.blockCommitted _) (rest := rest) rfl rfl hv hfin
  exact ⟨_, _, hfirst, (run_add 2 hfirst).trans hsecond, rfl, rfl, rfl, rfl, rfl, fun i => State.sampleAt_congr _ s rfl rfl i⟩

end Sys2Proof.Machine
end

section
/-! PROOFS. BUS_WRITE and the housekeeping commands (45_host_access.md R97 to R100): everything a BUS_WRITE can do, by the register it
writes, and what each field and byte keeps. -/

namespace Sys2Proof.Machine

/-! ### BUS_WRITE, by the register it writes -/

/-- The protected registers (44_block_process.md R86), as the statements write them. -/
def Reg.Protected (r : Reg) : Prop := r ∈ [Reg.ctrl, .blockLen, .sampleRate] ∨ ∃ i, r = .sample i

/-- The register a BUS_WRITE writes. An access the port does not define is refused as one to no register is (20_memory.md R34, R36). -/
def writeTarget (nMax : Nat) (a : BitVec 24) (size : BitVec 2) : Reg := if definedAccess a size then select nMax a else .unmapped

theorem execBusWrite_eq_writeReg (a : BitVec 24) (size : BitVec 2) (w : Word) (s : State) :
    execBusWrite a size w s = writeReg (writeTarget s.nMax a size) w s := by
  unfold execBusWrite writeTarget
  split <;> rfl

theorem writeTarget_eq_iff {nMax : Nat} {a : BitVec 24} {size : BitVec 2} {r : Reg} (hr : r ≠ .unmapped) :
    writeTarget nMax a size = r ↔ definedAccess a size = true ∧ select nMax a = r := by
  cases hd : definedAccess a size <;> simp [writeTarget, hd, hr.symm]

theorem writeTarget_protected_iff {nMax : Nat} {a : BitVec 24} {size : BitVec 2} :
    (writeTarget nMax a size).Protected ↔ definedAccess a size = true ∧ (select nMax a).Protected := by
  cases hd : definedAccess a size <;> simp [writeTarget, hd, Reg.Protected]

/-- Everything a write to the register `r` can do (45_host_access.md R97). -/
inductive WriteEffect (s : State) : Reg → State → Prop where
  | refused {r : Reg} (hc : r ≠ .cmd) (hp : ¬r.Protected) : WriteEffect s r s.flagBadAccess
  | command (v : Status) (info : Word) : WriteEffect s .cmd ((s.setStatus v).setErrInfo info)
  | dropped {r : Reg} (hp : r.Protected) (hb : s.status.busy = true) : WriteEffect s r s.flagWrBusy
  | ctrl (hb : s.status.busy = false) (v : Ctrl) : WriteEffect s .ctrl (s.setCtrl v)
  | blockLen (hb : s.status.busy = false) (v : BitVec 32) : WriteEffect s .blockLen (s.setBlockLen v)
  | sampleRate (hb : s.status.busy = false) (v : Word) : WriteEffect s .sampleRate (s.setSampleRate v)
  | sample (hb : s.status.busy = false) (i : Nat) (w : Word) : WriteEffect s (.sample i) (s.writeSample i w)

/-- A command stores to STATUS and ERR_INFO alone. -/
theorem runCommand_frame (c : Option Command) (s : State) :
    ∃ v info, runCommand c s = .next ((s.setStatus v).setErrInfo info) := by
  match c with
  | none => exact ⟨s.status.setBadCmd, s.errInfo, rfl⟩
  | some .nop => exact ⟨s.status, s.errInfo, rfl⟩
  | some .clearStatus => exact ⟨s.status.cleared, 0#64, rfl⟩
  | some .start =>
    cases hb : s.status.busy with
    | false => exact ⟨s.status.started, 0#64, execStart_idle hb⟩
    | true => exact ⟨s.status.setOverrun, s.errInfo, execStart_busy hb⟩

theorem State.protectedWrite_writeEffect {s t : State} {r : Reg} (hp : r.Protected)
    (h : s.status.busy = false → WriteEffect s r t) : WriteEffect s r (s.protectedWrite t) := by
  cases hb : s.status.busy with
  | true => rw [s.protectedWrite_busy t hb]; exact .dropped hp hb
  | false => rw [s.protectedWrite_idle t hb]; exact h hb

theorem writeReg_writeEffect (r : Reg) (w : Word) (s : State) : ∃ t, writeReg r w s = .next t ∧ WriteEffect s r t := by
  cases r with
  | cmd =>
    obtain ⟨v, info, h⟩ := runCommand_frame (decodeCmd w) s
    exact ⟨_, h, .command v info⟩
  | ctrl => exact ⟨_, rfl, State.protectedWrite_writeEffect (by simp [Reg.Protected]) fun hb => .ctrl hb _⟩
  | blockLen => exact ⟨_, rfl, State.protectedWrite_writeEffect (by simp [Reg.Protected]) fun hb => .blockLen hb _⟩
  | sampleRate => exact ⟨_, rfl, State.protectedWrite_writeEffect (by simp [Reg.Protected]) fun hb => .sampleRate hb w⟩
  | sample i => exact ⟨_, rfl, State.protectedWrite_writeEffect (by simp [Reg.Protected]) fun hb => .sample hb i w⟩
  | _ => exact ⟨_, rfl, .refused nofun (by simp [Reg.Protected])⟩

/-- Every BUS_WRITE completes, with the effect of a write to its register. -/
theorem exec_busWrite_writeEffect (a : BitVec 24) (size : BitVec 2) (w : Word) (s : State) :
    ∃ t, exec (.busWrite a size w) s = .next t ∧ WriteEffect s (writeTarget s.nMax a size) t := by
  obtain ⟨t, ht, he⟩ := writeReg_writeEffect (writeTarget s.nMax a size) w s
  exact ⟨t, (execBusWrite_eq_writeReg a size w s).trans ht, he⟩

/-! ### The frame of BUS_WRITE, field by field -/

namespace WriteEffect

variable {s t : State} {r : Reg} (h : WriteEffect s r t)
include h

theorem unreached_eq : t.result = s.result ∧ t.resultSeq = s.resultSeq ∧ t.rdata = s.rdata ∧ t.nMax = s.nMax ∧
    t.epoch = s.epoch ∧ t.order = s.order := by
  cases h <;> exact ⟨rfl, rfl, rfl, rfl, rfl, rfl⟩

theorem ctrl_eq (hr : ¬(r = .ctrl ∧ s.status.busy = false)) : t.ctrl = s.ctrl := by
  cases h with
  | ctrl hb => exact absurd ⟨rfl, hb⟩ hr
  | _ => rfl

theorem blockLen_eq (hr : ¬(r = .blockLen ∧ s.status.busy = false)) : t.blockLen = s.blockLen := by
  cases h with
  | blockLen hb => exact absurd ⟨rfl, hb⟩ hr
  | _ => rfl

theorem sampleRate_eq (hr : ¬(r = .sampleRate ∧ s.status.busy = false)) : t.sampleRate = s.sampleRate := by
  cases h with
  | sampleRate hb => exact absurd ⟨rfl, hb⟩ hr
  | _ => rfl

/-- Only a command reaches ERR_INFO and the STATUS fields that no access error sets. -/
theorem commandFields_eq (hr : r ≠ .cmd) : t.errInfo = s.errInfo ∧ t.status.busy = s.status.busy ∧
    t.status.done = s.status.done ∧ t.status.err = s.status.err ∧ t.status.errCause = s.status.errCause ∧
    t.status.overrun = s.status.overrun ∧ t.status.badCmd = s.status.badCmd := by
  cases h with
  | command => exact absurd rfl hr
  | _ => exact ⟨rfl, rfl, rfl, rfl, rfl, rfl, rfl⟩

theorem wrBusy_eq (hc : r ≠ .cmd) (hp : ¬(s.status.busy = true ∧ r.Protected)) : t.status.wrBusy = s.status.wrBusy := by
  cases h with
  | command => exact absurd rfl hc
  | dropped hr hb => exact absurd ⟨hb, hr⟩ hp
  | _ => rfl

theorem badAccess_eq (hp : r.Protected) : t.status.badAccess = s.status.badAccess := by
  cases h with
  | refused _ hr => exact absurd hp hr
  | command => simp [Reg.Protected] at hp
  | _ => rfl

theorem readByte_eq (hr : ¬∃ i, r = .sample i ∧ s.status.busy = false) (x : Nat) : t.readByte x = s.readByte x := by
  cases h with
  | sample hb i => exact absurd ⟨i, rfl, hb⟩ hr
  | _ => rfl

theorem readByte_outside {i : Nat} (hr : r = .sample i) (x : Nat) (hx : x < sampleAddr i ∨ sampleAddr i + 8 ≤ x) :
    t.readByte x = s.readByte x := by
  cases h with
  | sample hb j w => exact s.readByte_writeSample_outside j x w (Reg.sample.inj hr ▸ hx)
  | _ => rfl

end WriteEffect

/-- Settles O25: the frame of `WriteEffect`, with the register read back as the access that selects it. -/
theorem busWriteCompletesWithItsFrame : Obligations.BusWriteCompletesWithItsFrame := by
  intro s a size w
  obtain ⟨t, ht, he⟩ := exec_busWrite_writeEffect a size w s
  obtain ⟨hresult, hseq, hrdata, hnMax, hepoch, horder⟩ := he.unreached_eq
  have htarget (r : Reg) (hr : r ≠ .unmapped) := writeTarget_eq_iff (nMax := s.nMax) (a := a) (size := size) hr
  have hprot := writeTarget_protected_iff (nMax := s.nMax) (a := a) (size := size)
  refine ⟨t, ht, hresult, hseq, hrdata, hnMax, hepoch, horder, fun h => he.ctrl_eq ?_, fun h => he.blockLen_eq ?_,
    fun h => he.sampleRate_eq ?_, fun h => he.commandFields_eq ?_, fun hc hp => he.wrBusy_eq ?_ ?_,
    fun hd hp => he.badAccess_eq (hprot.2 ⟨hd, hp⟩),
    fun i hd hs _ => he.readByte_outside ((htarget (.sample i) nofun).2 ⟨hd, hs⟩), fun h => he.readByte_eq ?_⟩
  · rwa [htarget .ctrl nofun, and_assoc]
  · rwa [htarget .blockLen nofun, and_assoc]
  · rwa [htarget .sampleRate nofun, and_assoc]
  · rwa [ne_eq, htarget .cmd nofun]
  · rwa [ne_eq, htarget .cmd nofun]
  · rwa [hprot, and_left_comm]
  · rintro ⟨i, hr, hb⟩
    obtain ⟨hd, hs⟩ := (htarget (.sample i) nofun).1 hr
    exact h ⟨i, hd, hs, hb⟩

/-! ### The commands -/

/-- A reserved word in CMD is not executed (45_host_access.md R100). -/
theorem exec_reservedCommand (s : State) (w : Word) (h : decodeCmd w = none) :
    exec (.busWrite 0x000020#24 3#2 w) s = .next s.flagBadCmd := by
  rw [exec_busWrite_of_covers 0x000020#24 w s .cmd rfl rfl, writeReg, h, runCommand]

/-- Settles O32: such a word decodes to no command. -/
theorem reservedCommandOnlySetsBadCmd : Obligations.ReservedCommandOnlySetsBadCmd := fun s w h =>
  exec_reservedCommand s w ((decodeCmd_eq_none_iff w).2 h)

/-- Settles O28: the instruction, and the CMD write that carries it. -/
theorem nopChangesNothing : Obligations.NopChangesNothing := fun s =>
  ⟨rfl, execBusWrite_command _ .nop s (decodeCmd_word .nop)⟩

/-- With neither DONE nor ERR the interrupt output is 0, whatever IRQ_EN is (60_exceptions.md R108). -/
theorem State.irq_eq_false {s : State} (hd : s.status.done = false) (he : s.status.err = false) : s.irq = false := by
  simp [State.irq, hd, he]

/-- Settles O31: the instruction, the CMD write that carries it, and DONE and ERR are among the fields it clears. -/
theorem clearStatusClearsAllButBusy : Obligations.ClearStatusClearsAllButBusy := fun s =>
  ⟨_, rfl, rfl, State.irq_eq_false rfl rfl, execBusWrite_command _ .clearStatus s (decodeCmd_word .clearStatus)⟩

end Sys2Proof.Machine
end

section
/-! PROOFS. The exceptions (60_exceptions.md R103 to R108): what stops a step, what fails a block, what sets and clears the sticky
flags, and the interrupt output. -/

namespace Sys2Proof.Machine

/-! ### No error stops the core -/

/-- An access runs the instruction its descriptor decodes to, and every instruction answers a next state (R103). -/
theorem step_access_total {s : State} {r : Request} {rest : List Event} (ho : s.order = .access r :: rest)
    (hr : descReserved r.descriptor = 0#5) : ∃ t, step s = .next t := by
  obtain ⟨i, hi⟩ := decode_total r hr
  obtain ⟨t, hx, -⟩ := exec_effect i (s.setOrder rest)
  exact ⟨t, (stepRunsTheDecodedInstruction s r rest i ho hi).trans hx⟩

/-- An ill-formed request is refused by name (30_encoding.md R48). -/
theorem step_access_refused {s : State} {r : Request} {rest : List Event} (ho : s.order = .access r :: rest)
    (hr : descReserved r.descriptor ≠ 0#5) : step s = .refused .illFormedRequest := by
  simp [step, ho, decode_refused r hr]

/-- Settles O8, by the front event of the order and, for an access, its reserved field. -/
theorem onlyAnIllFormedRequestStopsAStep : Obligations.OnlyAnIllFormedRequestStopsAStep := by
  intro s
  match ho : s.order with
  | [] => exact .inl ⟨_, step_empty s ho⟩
  | .core :: rest => exact .inl ⟨_, step_core s rest ho⟩
  | .reset :: rest => exact .inl ⟨_, step_reset s rest ho⟩
  | .access r :: rest =>
    by_cases hr : descReserved r.descriptor = 0#5
    · exact .inl (step_access_total ho hr)
    · exact .inr ⟨r, rest, rfl, hr, step_access_refused ho hr⟩

/-! ### InvalidBlock -/

/-- `validate` gives the causes up to SAMPLE_NONFINITE (R104). -/
theorem State.validate_cause_le (s : State) : s.validate.1.toNat ≤ 5 := by
  rcases s.validate_cases with h | h | h | h | h | ⟨i, h, -⟩ <;> simp only [h] <;> decide

/-- Settles O34: the two ways a completion raises InvalidBlock, and the core's turn while BUSY is the completion. -/
theorem invalidBlockReportsItsCause : Obligations.InvalidBlockReportsItsCause := by
  refine ⟨fun f s c info h => ?_, fun s rest hb ho => ?_⟩
  · rcases h with ⟨hv, hc⟩ | ⟨hv, rfl, k, rfl, hk, hlow⟩
    · have hle : c.toNat ≤ 5 := by simpa only [hv] using s.validate_cause_le
      have hpos : 1 ≤ c.toNat := by bv_omega
      exact ⟨hpos, by omega, s.completeWith_invalid f c info hv hc⟩
    · exact ⟨by decide, by decide, s.completeWith_badNote f k hv (s.firstBadNote_of_lowest f k hk hlow)⟩
  · rw [step_core s rest ho, (s.setOrder rest).coreTurn_busy hb]; rfl

/-! ### The sticky flags -/

/-- The sticky flags of STATUS (R106). -/
def stickyFlags : List (Status → Bool) := [Status.overrun, Status.wrBusy, Status.badCmd, Status.badAccess]

/-- A property of the sticky flags, flag by flag. -/
theorem forall_mem_stickyFlags {p : (Status → Bool) → Prop} :
    (∀ f ∈ stickyFlags, p f) ↔ p Status.overrun ∧ p Status.wrBusy ∧ p Status.badCmd ∧ p Status.badAccess := by
  simp [stickyFlags]

/-- The core's turn sets and clears no sticky flag (44_block_process.md R87). -/
theorem State.coreTurn_stickyFlag (s : State) : ∀ f ∈ stickyFlags, f s.coreTurn.status = f s.status := by
  rw [forall_mem_stickyFlags]
  rcases s.coreTurn_cases with ⟨h, -⟩ | ⟨-, c, info, h, -⟩ | ⟨-, -, -, h⟩ <;> rw [h] <;> exact ⟨rfl, rfl, rfl, rfl⟩

theorem Status.reset_stickyFlag : ∀ f ∈ stickyFlags, f Status.reset = false :=
  forall_mem_stickyFlags.2 ⟨rfl, rfl, rfl, rfl⟩

/-- No effect of an instruction raises two sticky flags: CLEAR_STATUS raises none, and each other effect writes one or none. -/
theorem BusEffect.countP_raised_le_one {s t : State} (h : BusEffect s t) :
    (stickyFlags.map fun f => f t.status && !f s.status).countP id ≤ 1 := by
  have hcount (b : Bool) : (if b = false then 1 else 0) ≤ 1 := by cases b <;> decide
  cases h with
  | cleared => simp [stickyFlags]
  | badAccess | badRead | badCmd | dropped | overrun => simp [stickyFlags, List.countP_cons, hcount]
  | _ => simp [stickyFlags]

/-- Settles O27, by the effects an instruction can have. -/
theorem oneAccessRaisesAtMostOneStickyFlag : Obligations.OneAccessRaisesAtMostOneStickyFlag := fun i s t h =>
  (exec_cases i s t h).countP_raised_le_one

/-- Everything a decoded instruction can do to STATUS, and when: `StatusEffect n v i u` is STATUS going from `v` to `u` by the
instruction `i` in a core of N_MAX `n` (R106). -/
inductive StatusEffect (n : Nat) (v : Status) : Instr → Status → Prop where
  | kept (i : Instr) : StatusEffect n v i v
  | started : StatusEffect n v .start v.started
  | cleared : StatusEffect n v .clearStatus v.cleared
  | overrun (hb : v.busy = true) : StatusEffect n v .start v.setOverrun
  | wrBusy (hb : v.busy = true) (a : BitVec 24) (w : Word) (h8 : a.toNat % 8 = 0) (hp : (select n a).Protected) :
      StatusEffect n v (.busWrite a 3#2 w) v.setWrBusy
  | badCmd (w : Word) (hw : decodeCmd w = none) : StatusEffect n v (.busWrite 0x000020#24 3#2 w) v.setBadCmd
  | badRead (a : BitVec 24) (size : BitVec 2) (h : size ≠ 3#2 ∨ a.toNat % 8 ≠ 0 ∨ select n a = .unmapped) :
      StatusEffect n v (.busRead a size) v.setBadAccess
  | badWrite (a : BitVec 24) (size : BitVec 2) (w : Word) (h : size ≠ 3#2 ∨ a.toNat % 8 ≠ 0 ∨
      select n a ∉ [Reg.cmd, .ctrl, .blockLen, .sampleRate] ∧ ∀ j, select n a ≠ .sample j) :
      StatusEffect n v (.busWrite a size w) v.setBadAccess

/-- An access is undefined by its size or its alignment (20_memory.md R36). -/
theorem definedAccess_eq_false_iff (a : BitVec 24) (size : BitVec 2) :
    definedAccess a size = false ↔ size ≠ 3#2 ∨ a.toNat % 8 ≠ 0 := by
  rw [← Bool.not_eq_true, definedAccess_iff, not_and_or]

theorem exec_statusEffect {i : Instr} {s t : State} (hwf : i.wellFormed = true) (h : exec i s = .next t) :
    StatusEffect s.nMax s.status i t.status := by
  cases i with
  | busRead a size =>
    rcases exec_busRead_cases a size s t h with ⟨rfl, hbad⟩ | ⟨v, rfl⟩
    · rw [definedAccess_eq_false_iff, or_assoc] at hbad
      exact .badRead a size hbad
    · exact .kept _
  | busWrite a size w =>
    rcases exec_busWrite_cases a size w s t hwf h with ⟨rfl, hbad⟩ | ⟨rfl, hd, hs, hw⟩ | ⟨rfl, hb, hd, hp⟩ | ⟨ht, -⟩
    · rw [definedAccess_eq_false_iff, or_assoc] at hbad
      exact .badWrite a size w hbad
    · obtain rfl := ((definedAccess_iff a size).1 hd).1
      obtain rfl := select_cmd _ a hs
      exact .badCmd w hw
    · obtain ⟨rfl, h8⟩ := (definedAccess_iff a size).1 hd
      exact .wrBusy hb a w h8 hp
    · rw [ht]; exact .kept _
  | nop => cases h; exact .kept _
  | start =>
    rcases exec_start_cases s t h with ⟨hb, rfl⟩ | ⟨-, rfl⟩
    · exact .overrun hb
    · exact .started
  | clearStatus => cases h; exact .cleared

/-- Everything a step can do to a sticky flag: nothing, a reset's clearing, or the effect of one decoded access. -/
theorem step_stickyFlag_cases {s t : State} (h : step s = .next t) {f : Status → Bool} (hf : f ∈ stickyFlags) :
    f t.status = f s.status ∨ (f t.status = false ∧ ∃ rest, s.order = .reset :: rest) ∨
    (∃ r rest i, s.order = .access r :: rest ∧ decode r = .ok i ∧ StatusEffect s.nMax s.status i t.status) := by
  rcases step_exec s t h with ⟨-, rfl⟩ | ⟨rest, ho, rfl⟩ | ⟨r, rest, i, ho, hd, hx⟩
  · exact .inl (State.coreTurn_stickyFlag _ f hf)
  · exact .inr (.inl ⟨Status.reset_stickyFlag f hf, rest, ho⟩)
  · have he := exec_statusEffect (decode_wellFormed r i hd) hx
    exact .inr (.inr ⟨r, rest, i, ho, hd, he⟩)

/-! ### What clears a sticky flag -/

/-- Of the instructions only CLEAR_STATUS clears a sticky flag (45_host_access.md R99). -/
theorem StatusEffect.keeps_stickyFlag {n : Nat} {v u : Status} {i : Instr} (h : StatusEffect n v i u) (hi : i ≠ .clearStatus) :
    ∀ f ∈ stickyFlags, f v = true → f u = true := by
  rw [forall_mem_stickyFlags]
  cases h with
  | cleared => exact absurd rfl hi
  | _ => simp

/-- A step that clears a sticky flag ran CLEAR_STATUS or was a reset. -/
theorem step_clears_stickyFlag {s t : State} (h : step s = .next t) : ∀ f ∈ stickyFlags, f s.status = true ∧ f t.status = false →
    (∃ r rest, s.order = .access r :: rest ∧ decode r = .ok .clearStatus) ∨ (∃ rest, s.order = .reset :: rest) := by
  rintro f hf ⟨hs, ht⟩
  rcases step_stickyFlag_cases h hf with heq | ⟨-, hreset⟩ | ⟨r, rest, i, ho, hd, he⟩
  · simp [hs, ht] at heq
  · exact .inr hreset
  · by_cases hi : i = .clearStatus
    · exact .inl ⟨r, rest, ho, hi ▸ hd⟩
    · simp [he.keeps_stickyFlag hi f hf hs] at ht

/-- Settles O52, flag by flag. -/
theorem stickyFlagsAreClearedOnlyByClearStatusOrReset : Obligations.StickyFlagsAreClearedOnlyByClearStatusOrReset := by
  intro s t h hcleared
  obtain ⟨hov, hwb, hbc, hba⟩ := forall_mem_stickyFlags.1 (step_clears_stickyFlag h)
  exact hcleared.elim hov (·.elim hwb (·.elim hbc hba))

/-! ### What sets a sticky flag -/

/-- Only an access sets a sticky flag (R106). -/
theorem step_sets_stickyFlag {s t : State} (h : step s = .next t) : ∀ f ∈ stickyFlags, f s.status = false → f t.status = true →
    ∃ r rest i, s.order = .access r :: rest ∧ decode r = .ok i ∧ StatusEffect s.nMax s.status i t.status := by
  intro f hf hs ht
  rcases step_stickyFlag_cases h hf with heq | ⟨hfalse, -⟩ | haccess
  · simp [hs, ht] at heq
  · simp [ht] at hfalse
  · exact haccess

/-- Where the protected registers lie (10_state.md R16; 44_block_process.md R86). -/
theorem select_protected {n : Nat} {a : BitVec 24} (h : (select n a).Protected) :
    a = 0x000010#24 ∨ a = 0x000028#24 ∨ a = 0x000030#24 ∨ (0x10000 ≤ a.toNat ∧ a.toNat < 0x10000 + 8 * n) := by
  have hcov := select_covers n a
  rcases h with h | ⟨i, h⟩
  · simp only [List.mem_cons, List.not_mem_nil, or_false] at h
    rcases h with h | h | h <;> rw [h] at hcov
    · exact .inl (BitVec.eq_of_toNat_eq hcov)
    · exact .inr (.inl (BitVec.eq_of_toNat_eq hcov))
    · exact .inr (.inr (.inl (BitVec.eq_of_toNat_eq hcov)))
  · rw [h] at hcov
    obtain ⟨hlo, hhi, -⟩ := hcov
    exact .inr (.inr (.inr ⟨hlo, hhi⟩))

namespace StatusEffect

variable {n : Nat} {v u : Status} {i : Instr} (h : StatusEffect n v i u)
include h

theorem overrun_set (h0 : v.overrun = false) (h1 : u.overrun = true) : v.busy = true ∧ i = .start := by
  cases h with
  | overrun hb => exact ⟨hb, rfl⟩
  | _ => simp [h0] at h1

theorem wrBusy_set (h0 : v.wrBusy = false) (h1 : u.wrBusy = true) :
    v.busy = true ∧ ∃ a w, i = .busWrite a 3#2 w ∧ a.toNat % 8 = 0 ∧ (select n a).Protected := by
  cases h with
  | wrBusy hb a w h8 hp => exact ⟨hb, a, w, rfl, h8, hp⟩
  | _ => simp [h0] at h1

theorem badCmd_set (h0 : v.badCmd = false) (h1 : u.badCmd = true) :
    ∃ w, i = .busWrite 0x000020#24 3#2 w ∧ decodeCmd w = none := by
  cases h with
  | badCmd w hw => exact ⟨w, rfl, hw⟩
  | _ => simp [h0] at h1

theorem badAccess_set (h0 : v.badAccess = false) (h1 : u.badAccess = true) :
    (∃ a size, i = .busRead a size ∧ (size ≠ 3#2 ∨ a.toNat % 8 ≠ 0 ∨ select n a = .unmapped)) ∨
    (∃ a size w, i = .busWrite a size w ∧ (size ≠ 3#2 ∨ a.toNat % 8 ≠ 0 ∨
      select n a ∉ [Reg.cmd, .ctrl, .blockLen, .sampleRate] ∧ ∀ j, select n a ≠ .sample j)) := by
  cases h with
  | badRead a size hbad => exact .inl ⟨a, size, rfl, hbad⟩
  | badWrite a size w hbad => exact .inr ⟨a, size, w, rfl, hbad⟩
  | _ => simp [h0] at h1

end StatusEffect

/-- Settles O53: the step was an access, and each flag has its events among the effects of one. -/
theorem stickyFlagsAreSetOnlyByTheirEvent : Obligations.StickyFlagsAreSetOnlyByTheirEvent := by
  intro s t h
  obtain ⟨hov, hwb, hbc, hba⟩ := forall_mem_stickyFlags.1 (step_sets_stickyFlag h)
  refine ⟨fun h0 h1 => ?_, fun h0 h1 => ?_, fun h0 h1 => ?_, fun h0 h1 => ?_⟩
  · obtain ⟨r, rest, i, ho, hd, he⟩ := hov h0 h1
    obtain ⟨hb, rfl⟩ := he.overrun_set h0 h1
    exact ⟨hb, r, rest, ho, hd⟩
  · obtain ⟨r, rest, i, ho, hd, he⟩ := hwb h0 h1
    obtain ⟨hb, a, w, rfl, h8, hp⟩ := he.wrBusy_set h0 h1
    exact ⟨hb, r, rest, a, w, ho, hd, h8, select_protected hp⟩
  · obtain ⟨r, rest, i, ho, hd, he⟩ := hbc h0 h1
    obtain ⟨w, rfl, hw⟩ := he.badCmd_set h0 h1
    exact ⟨r, rest, w, ho, hd, hw⟩
  · obtain ⟨r, rest, i, ho, hd, he⟩ := hba h0 h1
    exact ⟨r, rest, i, ho, hd, he.badAccess_set h0 h1⟩

/-! ### The interrupt output -/

theorem State.irq_eq_true_iff (s : State) :
    s.irq = true ↔ s.ctrl.irqEn = true ∧ (s.status.done = true ∨ s.status.err = true) := by
  simp [State.irq]

/-- The end of a block raises `irq` exactly if IRQ_EN is set, whatever the outcome (R108). -/
theorem State.completeWith_irq (f : Config.MagFn) (s : State) : (s.completeWith f).irq = s.ctrl.irqEn := by
  rcases s.completeWith_cases f with ⟨-, h⟩ | ⟨_, -, -, h⟩ | ⟨-, -, h⟩ <;> simp [h, State.irq]

/-- Settles O54: each event by the state it answers; a write to CTRL is a protected one. -/
theorem irqFollowsEnableAndOutcome : Obligations.IrqFollowsEnableAndOutcome := by
  intro s
  have hctrl (w : Word) := exec_busWrite_of_covers 0x000010#24 w s .ctrl rfl rfl
  refine ⟨s.irq_eq_true_iff, fun t hb h => ?_, fun t h => ?_, s.completeWith_irq _, fun t w hb h => ?_, fun t w hb h => ?_,
    rfl, fun _ _ _ _ => rfl⟩
  · cases (execStart_idle hb).symm.trans h
    exact State.irq_eq_false rfl rfl
  · cases h
    exact State.irq_eq_false rfl rfl
  · cases (exec_busWrite_idle _ w s _ (hctrl w) hb).symm.trans h
    rfl
  · cases (exec_busWrite_busy _ w s _ (hctrl w) hb).symm.trans h
    rfl

end Sys2Proof.Machine
end

section
/-! PROOFS. The reset event (70_reset_and_hazards.md R119). -/

namespace Sys2Proof.Machine

/-- Reset empties the written bytes, so every element of SAMPLE is its draw of the next number (10_state.md R29). -/
@[simp] theorem State.resetEvent_sampleAt (s : State) (i : Nat) :
    s.resetEvent.sampleAt i = Config.sampleDraw (s.epoch + 1) i :=
  s.resetEvent.sampleAt_unwritten i fun _ _ => rfl

/-- Reset lowers the interrupt output (60_exceptions.md R108). -/
@[simp] theorem State.resetEvent_irq (s : State) : s.resetEvent.irq = false :=
  State.irq_eq_false rfl rfl

/-- Settles O45: the step answers the reset event's state, read register by register; BUSY decides nothing. -/
theorem resetEventRestoresEveryRegister : Obligations.ResetEventRestoresEveryRegister := by
  intro s rest ho
  refine ⟨(s.setOrder rest).resetEvent, step_reset s rest ho, ?_⟩
  simp [Ctrl.reset, Status.reset]

end Sys2Proof.Machine
end
